-- ==== Sys2Proof/Word.lean ====
section
/-! DEFINITION. The word and byte types (00_scope.md R7, R9). -/

namespace Sys2Proof

/-- The machine's one unit: registers, addresses, memory words and instructions are 16 bits wide (R7). `+` on it is
addition modulo 65,536 (R10), `&&&` bitwise AND, `~~~` complement within 16 bits. -/
abbrev Word := BitVec 16

/-- A console byte, 0 to 255 (R14). -/
abbrev Byte := BitVec 8

end Sys2Proof
end

