-- ==== Sys2Proof/Config.lean ====
section
/-! DEFINITION. What is fixed for the machine (00_scope.md R7, R8). The open parameters of R8 are fixed at the values
92_eei_decisions.md gives them, each in the ONE operation that uses it: `PC_WRAP` = wrap in `Machine.incPc` (log 4),
`KBSR_READY_WRITE` = assign in `Machine.kbsrReady` (log 5), `TRAP_INPUT_SETS_CC` = true in `Machine.receiveInput`
(log 11), `INPUT_EOF` = stuck in `Machine.receiveInput` (log 3). The notice texts stay abstract (log 13). -/

namespace Sys2Proof.Config

/-- The number of memory words: addresses 0 to 65535 (R7, 10_state.md R29). -/
def memWords : Nat := 65536

/-- The program counter after reset; a constant, not read from memory (70_reset_and_hazards.md R191). -/
def resetPc : Word := 0x3000

/-- What every memory word holds after reset (70_reset_and_hazards.md R190: "memory zeroed"). -/
def resetWord : Word := 0x0000

end Sys2Proof.Config
end

