-- ==== Sys2Proof/Syntax.lean ====
section
/-! DEFINITION. The instructions: one constructor per row of spec/opcode_table.json, its 19 primary rows and its 8
refinement rows (30_encoding.md R78; log 20). -/

namespace Sys2Proof

/-- The eight general registers R0 to R7 (10_state.md R20). -/
inductive Reg where
  | r0 | r1 | r2 | r3 | r4 | r5 | r6 | r7
  deriving DecidableEq, Repr

/-- The six console services a trap vector can name (44_trap.md R141). -/
inductive Service where
  | getc | out | puts | in_ | putsp | halt
  deriving DecidableEq, Repr

/-- An instruction with the fields its format lists (30_encoding.md R61 to R69); ignored bits are no operands (R72). -/
inductive Instr where
  /-- BR: the mask bits n, z, p and PCoffset9 (R65, R110). -/
  | br (n z p : Bool) (off9 : BitVec 9)
  /-- ADD, register form (R61, R100). -/
  | add (dr sr1 sr2 : Reg)
  /-- ADD, immediate form, the table's ADDi (R62, R101). -/
  | addi (dr sr1 : Reg) (imm5 : BitVec 5)
  /-- LD (R64, R120). -/
  | ld (dr : Reg) (off9 : BitVec 9)
  /-- ST (R64, R124). -/
  | st (sr : Reg) (off9 : BitVec 9)
  /-- JSR (R68, R113). -/
  | jsr (off11 : BitVec 11)
  /-- JSRR (R68, R114). -/
  | jsrr (base : Reg)
  /-- AND, register form (R61, R102). -/
  | and (dr sr1 sr2 : Reg)
  /-- AND, immediate form, the table's ANDi (R62, R103). -/
  | andi (dr sr1 : Reg) (imm5 : BitVec 5)
  /-- LDR (R66, R122). -/
  | ldr (dr base : Reg) (off6 : BitVec 6)
  /-- STR (R66, R126). -/
  | str (sr base : Reg) (off6 : BitVec 6)
  /-- RTI (R69, R160). -/
  | rti
  /-- NOT (R63, R104). -/
  | not (dr sr : Reg)
  /-- LDI (R64, R121). -/
  | ldi (dr : Reg) (off9 : BitVec 9)
  /-- STI (R64, R125). -/
  | sti (sr : Reg) (off9 : BitVec 9)
  /-- JMP (R67, R112). -/
  | jmp (base : Reg)
  /-- RES, the reserved opcode (R69, R161). -/
  | res
  /-- LEA (R64, R123). -/
  | lea (dr : Reg) (off9 : BitVec 9)
  /-- TRAP with its vector (R69, R140). -/
  | trap (vect8 : BitVec 8)
  /-- TRAP 0x20 (R142). -/
  | getc
  /-- TRAP 0x21 (R143). -/
  | out
  /-- TRAP 0x22 (R144). -/
  | puts
  /-- TRAP 0x23, the table's IN (R145). -/
  | in_
  /-- TRAP 0x24 (R146). -/
  | putsp
  /-- TRAP 0x25 (R147). -/
  | halt
  /-- JMP R7, the table's RET (R76, R112). -/
  | ret
  /-- BR with n = z = p = 0, the table's NOP (R76, R111); its PCoffset9 has no effect. -/
  | nop (off9 : BitVec 9)
  deriving DecidableEq, Repr

end Sys2Proof
end

