-- ==== Sys2Proof/WellFormed.lean ====
section
/-! DEFINITION. Which terms of `Instr` stand for words of their own. Every field is as wide as its format's, so the only
checks are those that give a refinement row's words to that row's constructor alone (30_encoding.md R78; log 20). -/

namespace Sys2Proof

/-- The vectors 0x20 to 0x25 that name a service (44_trap.md R141). -/
def isServiceVector (v : BitVec 8) : Bool := decide (0x20 ≤ v.toNat ∧ v.toNat ≤ 0x25)

/-- Well-formed: not a primary-row spelling of a word that a refinement row names (NOP, RET, a trap service). -/
def Instr.wf : Instr → Bool
  | .br n z p _ => n || z || p
  | .jmp base => decide (base ≠ .r7)
  | .trap v => !isServiceVector v
  | .add _ _ _ => true
  | .addi _ _ _ => true
  | .ld _ _ => true
  | .st _ _ => true
  | .jsr _ => true
  | .jsrr _ => true
  | .and _ _ _ => true
  | .andi _ _ _ => true
  | .ldr _ _ _ => true
  | .str _ _ _ => true
  | .rti => true
  | .not _ _ => true
  | .ldi _ _ => true
  | .sti _ _ => true
  | .res => true
  | .lea _ _ => true
  | .getc => true
  | .out => true
  | .puts => true
  | .in_ => true
  | .putsp => true
  | .halt => true
  | .ret => true
  | .nop _ => true

end Sys2Proof
end

