-- ==== Sys2Proof/Decode.lean ====
section
/-! DEFINITION. The decoder, the encoder and the opcode table's rows (30_encoding.md, opcode_table.json). Decoding is
total: no word is refused (R70, R73, 40_execution_cycle.md R83). -/

namespace Sys2Proof

/-! ## Register numbers and trap vectors -/

/-- The register a 3-bit unsigned index names (R71). -/
def Reg.ofBits (b : BitVec 3) : Reg :=
  match b.toNat with
  | 0 => .r0
  | 1 => .r1
  | 2 => .r2
  | 3 => .r3
  | 4 => .r4
  | 5 => .r5
  | 6 => .r6
  | _ => .r7

/-- A register's 3-bit index (R71). -/
def Reg.bits : Reg → BitVec 3
  | .r0 => 0
  | .r1 => 1
  | .r2 => 2
  | .r3 => 3
  | .r4 => 4
  | .r5 => 5
  | .r6 => 6
  | .r7 => 7

/-- The service a vector selects; no service for an invalid vector (44_trap.md R141, R148). -/
def serviceOf (v : BitVec 8) : Option Service :=
  match v.toNat with
  | 0x20 => some .getc
  | 0x21 => some .out
  | 0x22 => some .puts
  | 0x23 => some .in_
  | 0x24 => some .putsp
  | 0x25 => some .halt
  | _ => none

/-! ## The formats (R61 to R69), bits from 15 down to 0; an ignored field is the argument `x` or `y` -/

/-- R61, ADD and AND with a register operand. -/
def formatOPR (op : BitVec 4) (dr sr1 : BitVec 3) (x : BitVec 2) (sr2 : BitVec 3) : Word :=
  op ++ dr ++ sr1 ++ 0#1 ++ x ++ sr2

/-- R62, ADD and AND with an immediate operand. -/
def formatOPI (op : BitVec 4) (dr sr1 : BitVec 3) (imm5 : BitVec 5) : Word :=
  op ++ dr ++ sr1 ++ 1#1 ++ imm5

/-- R63, NOT. -/
def formatNOT (op : BitVec 4) (dr sr : BitVec 3) (x : BitVec 6) : Word :=
  op ++ dr ++ sr ++ x

/-- R64, LD, LDI, LEA, ST, STI. -/
def formatPC9 (op : BitVec 4) (r : BitVec 3) (off9 : BitVec 9) : Word :=
  op ++ r ++ off9

/-- R65, BR. -/
def formatBR (op : BitVec 4) (n z p : Bool) (off9 : BitVec 9) : Word :=
  op ++ BitVec.ofBool n ++ BitVec.ofBool z ++ BitVec.ofBool p ++ off9

/-- R66, LDR, STR. -/
def formatBASE6 (op : BitVec 4) (r base : BitVec 3) (off6 : BitVec 6) : Word :=
  op ++ r ++ base ++ off6

/-- R67, JMP. -/
def formatJMP (op : BitVec 4) (x : BitVec 3) (base : BitVec 3) (y : BitVec 6) : Word :=
  op ++ x ++ base ++ y

/-- R68, JSR: the long-flag is 1. -/
def formatJSR (op : BitVec 4) (off11 : BitVec 11) : Word :=
  op ++ 1#1 ++ off11

/-- R68, JSRR: the long-flag is 0. -/
def formatJSRR (op : BitVec 4) (x : BitVec 2) (base : BitVec 3) (y : BitVec 6) : Word :=
  op ++ 0#1 ++ x ++ base ++ y

/-- R69, TRAP. -/
def formatTRAP (op : BitVec 4) (x : BitVec 4) (vect8 : BitVec 8) : Word :=
  op ++ x ++ vect8

/-- R69, RTI and RES. -/
def formatNONE (op : BitVec 4) (x : BitVec 12) : Word :=
  op ++ x

/-! ## The fields of a word, by the bit positions of R61 to R69 -/

/-- Bits [15:12], the opcode (R60, R70). -/
def fieldOp (w : Word) : BitVec 4 := w.extractLsb' 12 4
/-- Bits [11:9], DR or SR. -/
def fieldHi (w : Word) : Reg := Reg.ofBits (w.extractLsb' 9 3)
/-- Bits [8:6], SR1, SR or BaseR. -/
def fieldMid (w : Word) : Reg := Reg.ofBits (w.extractLsb' 6 3)
/-- Bits [2:0], SR2. -/
def fieldLo (w : Word) : Reg := Reg.ofBits (w.extractLsb' 0 3)
/-- Bit 5, the imm-flag. -/
def fieldImmFlag (w : Word) : Bool := w.getLsbD 5
/-- Bit 11: the long-flag of opcode 0100, and n of BR. -/
def fieldBit11 (w : Word) : Bool := w.getLsbD 11
/-- Bit 10, z of BR. -/
def fieldBit10 (w : Word) : Bool := w.getLsbD 10
/-- Bit 9, p of BR. -/
def fieldBit9 (w : Word) : Bool := w.getLsbD 9
/-- Bits [4:0]. -/
def fieldImm5 (w : Word) : BitVec 5 := w.extractLsb' 0 5
/-- Bits [5:0]. -/
def fieldOff6 (w : Word) : BitVec 6 := w.extractLsb' 0 6
/-- Bits [8:0]. -/
def fieldOff9 (w : Word) : BitVec 9 := w.extractLsb' 0 9
/-- Bits [10:0]. -/
def fieldOff11 (w : Word) : BitVec 11 := w.extractLsb' 0 11
/-- Bits [7:0]. -/
def fieldVect8 (w : Word) : BitVec 8 := w.extractLsb' 0 8

/-! ## Decoding -/

/-- Opcode 0000: NOP when no mask bit is set, else BR (R65, R73 (c), R76). -/
def decodeBr (n z p : Bool) (off9 : BitVec 9) : Instr :=
  if n || z || p then .br n z p off9 else .nop off9

/-- Opcode 1100: RET when the base is R7, else JMP (R67, R76). -/
def decodeJmp (base : Reg) : Instr :=
  match base with
  | .r7 => .ret
  | b => .jmp b

/-- Opcode 1111: the service the vector names, else TRAP with the invalid vector (R69, R76, 44_trap.md R141). -/
def decodeTrap (v : BitVec 8) : Instr :=
  match serviceOf v with
  | some .getc => .getc
  | some .out => .out
  | some .puts => .puts
  | some .in_ => .in_
  | some .putsp => .putsp
  | some .halt => .halt
  | none => .trap v

/-- The instruction a word stands for: selection on bits [15:12], for ADD and AND on bit 5, for opcode 0100 on bit 11
(R70, 40_execution_cycle.md R83 to R85). Ignored bits take no part (R72; log 8). -/
def decode (w : Word) : Instr :=
  match (fieldOp w).toNat with
  | 0 => decodeBr (fieldBit11 w) (fieldBit10 w) (fieldBit9 w) (fieldOff9 w)
  | 1 =>
    if fieldImmFlag w then .addi (fieldHi w) (fieldMid w) (fieldImm5 w)
    else .add (fieldHi w) (fieldMid w) (fieldLo w)
  | 2 => .ld (fieldHi w) (fieldOff9 w)
  | 3 => .st (fieldHi w) (fieldOff9 w)
  | 4 => if fieldBit11 w then .jsr (fieldOff11 w) else .jsrr (fieldMid w)
  | 5 =>
    if fieldImmFlag w then .andi (fieldHi w) (fieldMid w) (fieldImm5 w)
    else .and (fieldHi w) (fieldMid w) (fieldLo w)
  | 6 => .ldr (fieldHi w) (fieldMid w) (fieldOff6 w)
  | 7 => .str (fieldHi w) (fieldMid w) (fieldOff6 w)
  | 8 => .rti
  | 9 => .not (fieldHi w) (fieldMid w)
  | 10 => .ldi (fieldHi w) (fieldOff9 w)
  | 11 => .sti (fieldHi w) (fieldOff9 w)
  | 12 => decodeJmp (fieldMid w)
  | 13 => .res
  | 14 => .lea (fieldHi w) (fieldOff9 w)
  | _ => decodeTrap (fieldVect8 w)

/-- The instruction the decoder reads from the `nbits` low bits of `w`. An instruction is one word (R60), so more than 16
bits are none. -/
def decodeTableWord (nbits w : Nat) : Option Instr :=
  if nbits ≤ 16 then some (decode (BitVec.ofNat 16 (w % 2 ^ nbits))) else none

/-! ## Encoding -/

/-- The word of an instruction, by its format; ignored bits are 0, NOT's are 111111 (R72, R77; log 25). -/
def encode : Instr → Word
  | .br n z p off9 => formatBR 0x0 n z p off9
  | .add dr sr1 sr2 => formatOPR 0x1 dr.bits sr1.bits 0 sr2.bits
  | .addi dr sr1 imm5 => formatOPI 0x1 dr.bits sr1.bits imm5
  | .ld dr off9 => formatPC9 0x2 dr.bits off9
  | .st sr off9 => formatPC9 0x3 sr.bits off9
  | .jsr off11 => formatJSR 0x4 off11
  | .jsrr base => formatJSRR 0x4 0 base.bits 0
  | .and dr sr1 sr2 => formatOPR 0x5 dr.bits sr1.bits 0 sr2.bits
  | .andi dr sr1 imm5 => formatOPI 0x5 dr.bits sr1.bits imm5
  | .ldr dr base off6 => formatBASE6 0x6 dr.bits base.bits off6
  | .str sr base off6 => formatBASE6 0x7 sr.bits base.bits off6
  | .rti => formatNONE 0x8 0
  | .not dr sr => formatNOT 0x9 dr.bits sr.bits 0x3F
  | .ldi dr off9 => formatPC9 0xA dr.bits off9
  | .sti sr off9 => formatPC9 0xB sr.bits off9
  | .jmp base => formatJMP 0xC 0 base.bits 0
  | .res => formatNONE 0xD 0
  | .lea dr off9 => formatPC9 0xE dr.bits off9
  | .trap v => formatTRAP 0xF 0 v
  | .getc => formatTRAP 0xF 0 0x20
  | .out => formatTRAP 0xF 0 0x21
  | .puts => formatTRAP 0xF 0 0x22
  | .in_ => formatTRAP 0xF 0 0x23
  | .putsp => formatTRAP 0xF 0 0x24
  | .halt => formatTRAP 0xF 0 0x25
  | .ret => formatJMP 0xC 0 Reg.r7.bits 0
  | .nop off9 => formatBR 0x0 false false false off9

/-! ## The rows of opcode_table.json -/

/-- A row's fixed bits: a word belongs to the row when `w &&& mask = value` (R78). `ignored` has a 1 at each bit the
row lists as ignored (R72). -/
structure Row where
  value : Word
  mask : Word
  ignored : Word
  deriving DecidableEq, Repr

/-- Whether a word belongs to a row (R78). -/
def Row.has (r : Row) (w : Word) : Bool := w &&& r.mask == r.value

/-- The 19 primary rows, in the table's order: BR, ADD, ADDi, LD, ST, JSR, JSRR, AND, ANDi, LDR, STR, RTI, NOT, LDI,
STI, JMP, RES, LEA, TRAP (R78). -/
def primaryRows : List Row :=
  [⟨0x0000, 0xF000, 0x0000⟩, ⟨0x1000, 0xF020, 0x0018⟩, ⟨0x1020, 0xF020, 0x0000⟩, ⟨0x2000, 0xF000, 0x0000⟩,
   ⟨0x3000, 0xF000, 0x0000⟩, ⟨0x4800, 0xF800, 0x0000⟩, ⟨0x4000, 0xF800, 0x063F⟩, ⟨0x5000, 0xF020, 0x0018⟩,
   ⟨0x5020, 0xF020, 0x0000⟩, ⟨0x6000, 0xF000, 0x0000⟩, ⟨0x7000, 0xF000, 0x0000⟩, ⟨0x8000, 0xF000, 0x0FFF⟩,
   ⟨0x9000, 0xF000, 0x003F⟩, ⟨0xA000, 0xF000, 0x0000⟩, ⟨0xB000, 0xF000, 0x0000⟩, ⟨0xC000, 0xF000, 0x0E3F⟩,
   ⟨0xD000, 0xF000, 0x0FFF⟩, ⟨0xE000, 0xF000, 0x0000⟩, ⟨0xF000, 0xF000, 0x0F00⟩]

/-- The table's row of an instruction. -/
def Instr.row : Instr → Row
  | .br _ _ _ _ => ⟨0x0000, 0xF000, 0x0000⟩
  | .add _ _ _ => ⟨0x1000, 0xF020, 0x0018⟩
  | .addi _ _ _ => ⟨0x1020, 0xF020, 0x0000⟩
  | .ld _ _ => ⟨0x2000, 0xF000, 0x0000⟩
  | .st _ _ => ⟨0x3000, 0xF000, 0x0000⟩
  | .jsr _ => ⟨0x4800, 0xF800, 0x0000⟩
  | .jsrr _ => ⟨0x4000, 0xF800, 0x063F⟩
  | .and _ _ _ => ⟨0x5000, 0xF020, 0x0018⟩
  | .andi _ _ _ => ⟨0x5020, 0xF020, 0x0000⟩
  | .ldr _ _ _ => ⟨0x6000, 0xF000, 0x0000⟩
  | .str _ _ _ => ⟨0x7000, 0xF000, 0x0000⟩
  | .rti => ⟨0x8000, 0xF000, 0x0FFF⟩
  | .not _ _ => ⟨0x9000, 0xF000, 0x003F⟩
  | .ldi _ _ => ⟨0xA000, 0xF000, 0x0000⟩
  | .sti _ _ => ⟨0xB000, 0xF000, 0x0000⟩
  | .jmp _ => ⟨0xC000, 0xF000, 0x0E3F⟩
  | .res => ⟨0xD000, 0xF000, 0x0FFF⟩
  | .lea _ _ => ⟨0xE000, 0xF000, 0x0000⟩
  | .trap _ => ⟨0xF000, 0xF000, 0x0F00⟩
  | .getc => ⟨0xF020, 0xF0FF, 0x0F00⟩
  | .out => ⟨0xF021, 0xF0FF, 0x0F00⟩
  | .puts => ⟨0xF022, 0xF0FF, 0x0F00⟩
  | .in_ => ⟨0xF023, 0xF0FF, 0x0F00⟩
  | .putsp => ⟨0xF024, 0xF0FF, 0x0F00⟩
  | .halt => ⟨0xF025, 0xF0FF, 0x0F00⟩
  | .ret => ⟨0xC1C0, 0xF1C0, 0x0E3F⟩
  | .nop _ => ⟨0x0000, 0xFE00, 0x0000⟩

end Sys2Proof
end

