-- ==== Sys2Proof/Machine/State.lean ====
section
/-! DEFINITION. The machine's state as plain data (10_state.md), the reasons a step can stop, and the state after reset
(70_reset_and_hazards.md R190). -/

namespace Sys2Proof.Machine

/-- The general registers (10_state.md R20): none is hard-wired. -/
structure Regs where
  r0 : Word
  r1 : Word
  r2 : Word
  r3 : Word
  r4 : Word
  r5 : Word
  r6 : Word
  r7 : Word
  deriving DecidableEq, Repr

/-- One listed word of memory at its word address (20_memory.md R40: the addressable unit is the word; log 1). -/
abbrev MemCell := Nat × Word

/-- Memory: the words that differ from the reset word, addresses strictly rising; every other address reads as
`Config.resetWord` (10_state.md R29, R33; log 1). -/
abbrev Memory := List MemCell

/-- The exit status a run ends with (00_scope.md R15): success is 0, failure is 1. -/
inductive ExitStatus where
  | success
  | failure
  deriving DecidableEq, Repr

/-- The number of an exit status (00_scope.md R7). -/
def ExitStatus.code : ExitStatus → Nat
  | .success => 0
  | .failure => 1

/-- The run state (10_state.md R31; log 16). -/
inductive RunState where
  | running
  | halted (status : ExitStatus)
  deriving DecidableEq, Repr

/-- What a notice is about (00_scope.md R14); its text is not given (R8; log 13). -/
inductive NoticeKind where
  | inPrompt | halt | badTrap | rti | res
  deriving DecidableEq, Repr

/-- One event of the console-output trace (00_scope.md R14). -/
inductive ConEvent where
  | char (b : Byte)
  | flush
  | notice (k : NoticeKind)
  deriving DecidableEq, Repr

/-- The console-input stream as the environment has supplied it so far (10_state.md R32): the bytes not yet consumed,
next one first, and whether end of input follows them. When it does not, the port has not answered yet (log 2). -/
structure ConInput where
  bytes : List Byte
  ended : Bool
  deriving DecidableEq, Repr

/-- An answer of the input port to `ConIn()` (00_scope.md R14). -/
inductive ConAnswer where
  | byte (b : Byte)
  | none
  deriving DecidableEq, Repr

/-- Everything the spec gives the machine (10_state.md R31, R33). -/
structure State where
  regs : Regs
  pc : Word
  cc : Word
  mem : Memory
  run : RunState
  conIn : ConInput
  /-- Oldest event first. -/
  conOut : List ConEvent
  deriving DecidableEq, Repr

/-- Why a step has no next state. Each is a stuck state the spec describes; each carries what the machine holds there.
All are safe: the model goes no further than the spec does. -/
inductive Fault where
  /-- A step asked of a HALTED machine: "no step is taken from it" (10_state.md R31). Raised by `step`. Safe. -/
  | halted (status : ExitStatus)
  /-- The step waits for a `ConIn()` that the port has not answered (40_execution_cycle.md R88); `s` is the state it waits
  in, and the step runs from its start once the stream holds an answer (log 3). Raised by `askPort`. Safe. -/
  | inputPending (s : State)
  /-- GETC or IN at end of input: the routine does not complete (44_trap.md R142, R145, D12; log 3), unless the
  environment supplies bytes after all (log 28). Raised by `receiveInput`. Safe. -/
  | endOfInput (s : State)
  /-- PUTS or PUTSP whose string has no end: the step never completes (44_trap.md R144). Raised by `printString`; no run
  reaches it, because a stream listed in State is finite (log 15). Safe. -/
  | stringNeverEnds (s : State)
  deriving DecidableEq, Repr

/-- Why an instruction has no meaning. Every instruction has one, so nothing raises this. -/
inductive Refusal where
  /-- An arm of `exec` that is still rejected by name: none. Safe. -/
  | notModelled (mnemonic : String)
  deriving DecidableEq, Repr

/-- The machine right after reset (70_reset_and_hazards.md R190, 10_state.md R33): general registers and cc zero, pc at
0x3000, memory zero, RUNNING, trace empty. The input stream is the environment's to supply; here it is empty and ended
(DESIGN CHOICE, log 2). -/
def State.reset : State where
  regs := ⟨0, 0, 0, 0, 0, 0, 0, 0⟩
  pc := Config.resetPc
  cc := 0x0000
  mem := []
  run := .running
  conIn := ⟨[], true⟩
  conOut := []

end Sys2Proof.Machine
end

