-- ==== Sys2Proof/Machine/Operands.lean ====
section
/-! DEFINITION. Operand forms: sign and zero extension, the bytes of a word, effective addresses (00_scope.md R11,
30_encoding.md R71, 43_load_store.md R127). Inside an instruction `s.pc` is already incremented (00_scope.md R16). -/

namespace Sys2Proof.Machine

/-- `sext_5` (R11). -/
def sext5 (v : BitVec 5) : Word := v.signExtend 16
/-- `sext_6` (R11). -/
def sext6 (v : BitVec 6) : Word := v.signExtend 16
/-- `sext_9` (R11). -/
def sext9 (v : BitVec 9) : Word := v.signExtend 16
/-- `sext_11` (R11). -/
def sext11 (v : BitVec 11) : Word := v.signExtend 16

/-- `zext_8`: the byte with bits [15:8] zero (R11). -/
def zext8 (b : Byte) : Word := b.setWidth 16

/-- Bits [7:0] of a word (20_memory.md R47 (b)). -/
def lowByte (w : Word) : Byte := w.extractLsb' 0 8
/-- Bits [15:8] of a word (44_trap.md R146). -/
def highByte (w : Word) : Byte := w.extractLsb' 8 8

/-- `pc + sext_9(PCoffset9)` (R127). -/
def pcRel9 (off9 : BitVec 9) (s : State) : Word := s.pc + sext9 off9
/-- `pc + sext_11(PCoffset11)` (42_control.md R113). -/
def pcRel11 (off11 : BitVec 11) (s : State) : Word := s.pc + sext11 off11

end Sys2Proof.Machine
end

