-- ==== Sys2Proof/Machine/Flags.lean ====
section
/-! DEFINITION. The condition flags (10_state.md R24, R25) and the test BR makes of them (42_control.md R110). -/

namespace Sys2Proof.Machine

/-- FL_POS (00_scope.md R7). -/
def flPos : Word := 0x0001
/-- FL_ZRO (00_scope.md R7). -/
def flZro : Word := 0x0002
/-- FL_NEG (00_scope.md R7). -/
def flNeg : Word := 0x0004

/-- The pattern a register value gives the condition register (R25). -/
def flagsOf (v : Word) : Word :=
  if v = 0x0000 then flZro else if v.getLsbD 15 then flNeg else flPos

/-- The three mask bits as w[11:9] (30_encoding.md R65). -/
def brMask (n z p : Bool) : BitVec 3 := BitVec.ofBool n ++ BitVec.ofBool z ++ BitVec.ofBool p

/-- BR is taken when a tested bit is set in cc[2:0] (R110; the pairing of bits is D8, log 9). -/
def brTaken (n z p : Bool) (cc : Word) : Bool := decide (brMask n z p &&& cc.extractLsb' 0 3 ≠ 0)

end Sys2Proof.Machine
end

