-- ==== Sys2Proof/Machine/Ops.lean ====
section
/-! DEFINITION. The operations over registers, memory, console and run state that the meanings call
(00_scope.md R12 to R16, 20_memory.md R43, R44). -/

namespace Sys2Proof.Machine

/-! ## Sequencing -/

/-- First `o`, then `f` on what it answers; a fault or a refusal ends the instruction at once. -/
def thenDo {α β : Type} (o : Host.Outcome α Fault Refusal) (f : α → Host.Outcome β Fault Refusal) :
    Host.Outcome β Fault Refusal :=
  match o with
  | .next a => f a
  | .fault r => .fault r
  | .refused r => .refused r

/-! ## The register bank (10_state.md R27) -/

/-- Read a general register. -/
def Regs.get (g : Regs) : Reg → Word
  | .r0 => g.r0
  | .r1 => g.r1
  | .r2 => g.r2
  | .r3 => g.r3
  | .r4 => g.r4
  | .r5 => g.r5
  | .r6 => g.r6
  | .r7 => g.r7

/-- Write a general register. -/
def Regs.set (g : Regs) (r : Reg) (v : Word) : Regs :=
  match r with
  | .r0 => { g with r0 := v }
  | .r1 => { g with r1 := v }
  | .r2 => { g with r2 := v }
  | .r3 => { g with r3 := v }
  | .r4 => { g with r4 := v }
  | .r5 => { g with r5 := v }
  | .r6 => { g with r6 := v }
  | .r7 => { g with r7 := v }

/-- `x[r]` (00_scope.md R12). -/
def State.reg (s : State) (r : Reg) : Word := s.regs.get r
/-- `x[r] <- v` (00_scope.md R12); it does not touch cc. -/
def State.setReg (s : State) (r : Reg) (v : Word) : State := { s with regs := s.regs.set r v }
/-- `pc <- v` (00_scope.md R16). -/
def State.setPc (s : State) (v : Word) : State := { s with pc := v }
/-- `cc <- v`, the whole register (10_state.md R25). -/
def State.setCc (s : State) (v : Word) : State := { s with cc := v }

/-- `setcc(r)`: the flags of the register's final value (10_state.md R25). -/
def setcc (r : Reg) (s : State) : State := s.setCc (flagsOf (s.reg r))

/-- The end of an instruction that defines DR: the register write, then `setcc(DR)` (10_state.md R26). -/
def writeResult (dr : Reg) (v : Word) (s : State) : State := setcc dr (s.setReg dr v)

/-- `pc <- pc + 1` modulo 65,536 (40_execution_cycle.md R82; at 0xFFFF it is 0x0000, D1, log 4). -/
def incPc (s : State) : State := s.setPc (s.pc + 1)

/-- `x[7] <- pc`, the link (42_control.md R113, R114). -/
def linkR7 (s : State) : State := s.setReg .r7 s.pc

/-! ## Memory -/

/-- The word at an address of the list; an unlisted address reads as the reset word. -/
def Memory.get : Memory → Nat → Word
  | [], _ => Config.resetWord
  | (k, v) :: m, a => if a = k then v else Memory.get m a

/-- The list without any entry for an address. -/
def Memory.erase : Memory → Nat → Memory
  | [], _ => []
  | (k, v) :: m, a => if a = k then Memory.erase m a else (k, v) :: Memory.erase m a

/-- The list with an entry put before the first higher address. -/
def Memory.insert : Memory → Nat → Word → Memory
  | [], a, v => [(a, v)]
  | (k, w) :: m, a, v => if a < k then (a, v) :: (k, w) :: m else (k, w) :: Memory.insert m a v

/-- The list after a write; writing what an unlisted address reads as removes the entry (log 1). -/
def Memory.set (m : Memory) (a : Nat) (v : Word) : Memory :=
  if v = Config.resetWord then m.erase a else (m.erase a).insert a v

/-- The canonical form above a bound: addresses rise from `lo`, lie in the space, and list no reset word. -/
def Memory.wfFrom : Nat → Memory → Bool
  | _, [] => true
  | lo, (k, v) :: m => decide (lo ≤ k) && decide (k < Config.memWords) && decide (v ≠ Config.resetWord) && wfFrom (k + 1) m

/-- The canonical form of memory: equal memories are equal lists (log 1). -/
def Memory.wf (m : Memory) : Bool := m.wfFrom 0

/-- `M[a]`, raw array access with no side effect (00_scope.md R12). -/
def State.word (s : State) (a : Word) : Word := s.mem.get a.toNat
/-- `M[a] <- v`, raw array access with no side effect. -/
def State.setWord (s : State) (a v : Word) : State := { s with mem := s.mem.set a.toNat v }

/-! ## Console -/

/-- Append one event to the console-output trace (00_scope.md R14). -/
def State.emit (s : State) (e : ConEvent) : State := { s with conOut := s.conOut ++ [e] }

/-- `ConOut(b)` (00_scope.md R14). -/
def conOutByte (b : Byte) (s : State) : State := s.emit (.char b)
/-- `ConFlush()` (00_scope.md R14). -/
def conFlush (s : State) : State := s.emit .flush
/-- `Notice(k)` (00_scope.md R14; log 13). -/
def notice (k : NoticeKind) (s : State) : State := s.emit (.notice k)

/-- Leave `bs` as the bytes still to be consumed. -/
def State.setBytes (s : State) (bs : List Byte) : State := { s with conIn := { s.conIn with bytes := bs } }

/-- `ConIn()`: the next byte, which is consumed; `none` at end of input; no answer yet, and the step waits
(00_scope.md R14, 40_execution_cycle.md R88; log 2, log 3). -/
def askPort (s : State) : Host.Outcome (ConAnswer × State) Fault Refusal :=
  match s.conIn.bytes with
  | b :: bs => .next (.byte b, s.setBytes bs)
  | [] => if s.conIn.ended then .next (.none, s) else .fault (.inputPending s)

/-! ## The memory unit (20_memory.md R43, R44) -/

/-- KBSR, the keyboard status address (00_scope.md R7). -/
def kbsr : Word := 0xFE00
/-- KBDR, the keyboard data address (00_scope.md R7). -/
def kbdr : Word := 0xFE02
/-- The status word a poll that brought a key leaves: the whole word, from the old one (D4, log 5). -/
def kbsrReady (_old : Word) : Word := 0x8000

/-- What a poll's answer does to the two keyboard words (R43): a non-zero byte goes to the data word and sets the status
word; a byte 0x00 or end of input clears the status word and leaves the data word. -/
def pollWrites (r : ConAnswer) (s : State) : State :=
  match r with
  | .byte b =>
    if b = 0x00 then s.setWord kbsr 0x0000
    else (s.setWord kbdr (zext8 b)).setWord kbsr (kbsrReady (s.word kbsr))
  | .none => s.setWord kbsr 0x0000

/-- `MemRead(a, 16)` (R43): a read of 0xFE00 polls the port first; then the word now at the address is answered. Every
read of the machine is this one (R46, D6, log 7). -/
def memRead (a : Word) (s : State) : Host.Outcome (Word × State) Fault Refusal :=
  if a = kbsr then
    thenDo (askPort s) fun p => .next ((pollWrites p.1 p.2).word a, pollWrites p.1 p.2)
  else .next (s.word a, s)

/-- `MemWrite(a, 16, v)` (R44): it stores and has no side effect at any address. -/
def memWrite (a v : Word) (s : State) : State := s.setWord a v

/-- `x[DR] <- MemRead(a, 16); setcc(DR)`, the end of every load (43_load_store.md R120 to R122). -/
def loadInto (dr : Reg) (a : Word) (s : State) : Host.Outcome State Fault Refusal :=
  thenDo (memRead a s) fun p => .next (writeResult dr p.1 p.2)

/-! ## Traps and the end of a run

The machine has no exception that enters a handler (60_exceptions.md R170). Its one trap entry is the TRAP
instruction's (R175), and no instruction returns from one (R176). -/

/-- Trap entry: `x[7] <- pc` and nothing else; no mode, no mask, no vector table, pc stays (R175, 44_trap.md R140). -/
def enterTrap (s : State) : State := linkR7 s

/-- `raise Terminate(st)`: `run <- HALTED(st)` (00_scope.md R15; log 16). -/
def terminate (st : ExitStatus) (s : State) : State := { s with run := .halted st }

/-- What GETC and IN do with the port's answer: a byte is echoed where the routine says so, goes to x[0] zero-extended
and sets the flags (44_trap.md R142, R145; D10, D11, D15: log 11, log 12); at end of input the routine does not
complete (D12, log 3). -/
def receiveInput (echo : Bool) (s : State) : Host.Outcome State Fault Refusal :=
  thenDo (askPort s) fun p =>
    match p.1 with
    | .byte b => .next (writeResult .r0 (zext8 b) (if echo then conOutByte b p.2 else p.2))
    | .none => .fault (.endOfInput p.2)

/-- `ConOut` for each byte in order. -/
def conOutBytes : List Byte → State → State
  | [], s => s
  | b :: bs, s => conOutBytes bs (conOutByte b s)

/-- The loop of PUTS and PUTSP (44_trap.md R144, R146): read the word at the pointer, stop at the word 0, else print what
`chars` makes of it and go on at the next address modulo 65,536. `fuel` bounds the words read. -/
def printString (chars : Word → List Byte) : Nat → Word → State → Host.Outcome State Fault Refusal
  | 0, _, s => .fault (.stringNeverEnds s)
  | fuel + 1, a, s =>
    thenDo (memRead a s) fun p =>
      if p.1 = 0x0000 then .next p.2 else printString chars fuel (a + 1) (conOutBytes (chars p.1) p.2)

/-- More words than any string can have: every 65,536 words in a row include 0xFE00, whose read consumes a byte or ends
the string or waits (20_memory.md R46; log 15). -/
def stringFuel (s : State) : Nat := (s.conIn.bytes.length + 1) * Config.memWords

/-- PUTS and PUTSP whole: the string at x[0], then `ConFlush()`; x[0] keeps its value (D16, log 14). -/
def printFromR0 (chars : Word → List Byte) (s : State) : Host.Outcome State Fault Refusal :=
  thenDo (printString chars (stringFuel s) (s.reg .r0) s) fun t => .next (conFlush t)

/-- PUTS: a word is one character, its low byte (44_trap.md R144). -/
def putsChars (c : Word) : List Byte := [lowByte c]

/-- PUTSP: the low byte always, then the high byte unless it is zero (44_trap.md R146). -/
def putspChars (c : Word) : List Byte :=
  if highByte c = 0x00 then [lowByte c] else [lowByte c, highByte c]

/-! ## Fetch -/

/-- `w <- MemRead(pc, 16)`, then `pc <- pc + 1` (40_execution_cycle.md R81, R82). -/
def fetch (s : State) : Host.Outcome (Word × State) Fault Refusal :=
  thenDo (memRead s.pc s) fun p => .next (p.1, incPc p.2)

end Sys2Proof.Machine
end

