-- ==== Sys2Proof/Machine/Control.lean ====
section
/-! DEFINITION. BR, NOP, JMP, RET, JSR, JSRR (42_control.md R110 to R115). -/

namespace Sys2Proof.Machine

/-- R110: `if (w[11:9] & cc[2:0]) != 0 then pc <- pc + sext_9(off9)`. -/
def execBr (n z p : Bool) (off9 : BitVec 9) (s : State) : Host.Outcome State Fault Refusal :=
  .next (if brTaken n z p s.cc then s.setPc (pcRel9 off9 s) else s)

/-- R111 (a): BR with mask 0 is never taken. -/
def execNop (_off9 : BitVec 9) (s : State) : Host.Outcome State Fault Refusal :=
  .next s

/-- R112: `pc <- x[BaseR]`. -/
def execJmp (base : Reg) (s : State) : Host.Outcome State Fault Refusal :=
  .next (s.setPc (s.reg base))

/-- R112 with BaseR = 7, the subroutine return. -/
def execRet (s : State) : Host.Outcome State Fault Refusal :=
  .next (s.setPc (s.reg .r7))

/-- R113: `x[7] <- pc; pc <- pc + sext_11(off11)`. -/
def execJsr (off11 : BitVec 11) (s : State) : Host.Outcome State Fault Refusal :=
  .next ((linkR7 s).setPc (pcRel11 off11 s))

/-- R114, in this order: `x[7] <- pc; pc <- x[BaseR]`; JSRR R7 reads the new link (D9, log 10). -/
def execJsrr (base : Reg) (s : State) : Host.Outcome State Fault Refusal :=
  .next ((linkR7 s).setPc ((linkR7 s).reg base))

end Sys2Proof.Machine
end

