-- ==== Sys2Proof/Machine/LoadStore.lean ====
section
/-! DEFINITION. LD, LDI, LDR, LEA, ST, STI, STR (43_load_store.md R120 to R127). -/

namespace Sys2Proof.Machine

/-- `x[BaseR] + sext_6(offset6)` (R122, R126). -/
def baseOff6 (base : Reg) (off6 : BitVec 6) (s : State) : Word := s.reg base + sext6 off6

/-- R120: `a <- pc + sext_9(off9); x[DR] <- MemRead(a, 16); setcc(DR)`. -/
def execLd (dr : Reg) (off9 : BitVec 9) (s : State) : Host.Outcome State Fault Refusal :=
  loadInto dr (pcRel9 off9 s) s

/-- R121: `p <- MemRead(pc + sext_9(off9), 16); x[DR] <- MemRead(p, 16); setcc(DR)`. -/
def execLdi (dr : Reg) (off9 : BitVec 9) (s : State) : Host.Outcome State Fault Refusal :=
  thenDo (memRead (pcRel9 off9 s) s) fun p => loadInto dr p.1 p.2

/-- R122: `a <- x[BaseR] + sext_6(off6); x[DR] <- MemRead(a, 16); setcc(DR)`. -/
def execLdr (dr base : Reg) (off6 : BitVec 6) (s : State) : Host.Outcome State Fault Refusal :=
  loadInto dr (baseOff6 base off6 s) s

/-- R123: `x[DR] <- pc + sext_9(off9); setcc(DR)`; no memory access. -/
def execLea (dr : Reg) (off9 : BitVec 9) (s : State) : Host.Outcome State Fault Refusal :=
  .next (writeResult dr (pcRel9 off9 s) s)

/-- R124: `MemWrite(pc + sext_9(off9), 16, x[SR])`. -/
def execSt (sr : Reg) (off9 : BitVec 9) (s : State) : Host.Outcome State Fault Refusal :=
  .next (memWrite (pcRel9 off9 s) (s.reg sr) s)

/-- R125: `p <- MemRead(pc + sext_9(off9), 16); MemWrite(p, 16, x[SR])`. -/
def execSti (sr : Reg) (off9 : BitVec 9) (s : State) : Host.Outcome State Fault Refusal :=
  thenDo (memRead (pcRel9 off9 s) s) fun p => .next (memWrite p.1 (p.2.reg sr) p.2)

/-- R126: `MemWrite(x[BaseR] + sext_6(off6), 16, x[SR])`. -/
def execStr (sr base : Reg) (off6 : BitVec 6) (s : State) : Host.Outcome State Fault Refusal :=
  .next (memWrite (baseOff6 base off6 s) (s.reg sr) s)

end Sys2Proof.Machine
end

