-- ==== Sys2Proof/Machine/Operate.lean ====
section
/-! DEFINITION. ADD, AND, NOT (41_operate.md R100 to R105). -/

namespace Sys2Proof.Machine

/-- R100: `x[DR] <- x[SR1] + x[SR2]; setcc(DR)`. -/
def execAdd (dr sr1 sr2 : Reg) (s : State) : Host.Outcome State Fault Refusal :=
  .next (writeResult dr (s.reg sr1 + s.reg sr2) s)

/-- R101: `x[DR] <- x[SR1] + sext_5(imm5); setcc(DR)`. -/
def execAddi (dr sr1 : Reg) (imm5 : BitVec 5) (s : State) : Host.Outcome State Fault Refusal :=
  .next (writeResult dr (s.reg sr1 + sext5 imm5) s)

/-- R102: `x[DR] <- x[SR1] & x[SR2]; setcc(DR)`. -/
def execAnd (dr sr1 sr2 : Reg) (s : State) : Host.Outcome State Fault Refusal :=
  .next (writeResult dr (s.reg sr1 &&& s.reg sr2) s)

/-- R103: `x[DR] <- x[SR1] & sext_5(imm5); setcc(DR)`. -/
def execAndi (dr sr1 : Reg) (imm5 : BitVec 5) (s : State) : Host.Outcome State Fault Refusal :=
  .next (writeResult dr (s.reg sr1 &&& sext5 imm5) s)

/-- R104: `x[DR] <- ~x[SR]; setcc(DR)`. -/
def execNot (dr sr : Reg) (s : State) : Host.Outcome State Fault Refusal :=
  .next (writeResult dr (~~~ s.reg sr) s)

end Sys2Proof.Machine
end

