-- ==== Sys2Proof/Machine/Reserved.lean ====
section
/-! DEFINITION. RTI and the reserved opcode RES: no-operations that emit a notice (45_reserved.md R160 to R162; log 23). -/

namespace Sys2Proof.Machine

/-- R160: `Notice(RTI)`; it returns from nothing and restores nothing (60_exceptions.md R176). -/
def execRti (s : State) : Host.Outcome State Fault Refusal := .next (notice .rti s)

/-- R161: `Notice(RES)`. -/
def execRes (s : State) : Host.Outcome State Fault Refusal := .next (notice .res s)

end Sys2Proof.Machine
end

