-- ==== Sys2Proof/Machine/Trap.lean ====
section
/-! DEFINITION. TRAP and its services (44_trap.md R140 to R149). The services are not code in memory: the core performs
each inside the TRAP's step. -/

namespace Sys2Proof.Machine

/-- GETC's routine (R142): one byte from the port to x[0], no echo. -/
def serveGetc (s : State) : Host.Outcome State Fault Refusal := receiveInput false s

/-- OUT's routine (R143): `ConOut(x[0][7:0])`. -/
def serveOut (s : State) : Host.Outcome State Fault Refusal := .next (conOutByte (lowByte (s.reg .r0)) s)

/-- PUTS's routine (R144). -/
def servePuts (s : State) : Host.Outcome State Fault Refusal := printFromR0 putsChars s

/-- IN's routine (R145): the prompt, then one byte from the port, echoed, to x[0]. -/
def serveIn (s : State) : Host.Outcome State Fault Refusal := receiveInput true (notice .inPrompt s)

/-- PUTSP's routine (R146). -/
def servePutsp (s : State) : Host.Outcome State Fault Refusal := printFromR0 putspChars s

/-- HALT's routine (R147): `Notice(HALT); ConFlush(); raise Terminate(0)`. -/
def serveHalt (s : State) : Host.Outcome State Fault Refusal :=
  .next (terminate .success (conFlush (notice .halt s)))

/-- An invalid vector (R148): `Notice(BAD_TRAP); ConFlush(); raise Terminate(1)`. -/
def serveBadVector (s : State) : Host.Outcome State Fault Refusal :=
  .next (terminate .failure (conFlush (notice .badTrap s)))

/-- The routine a vector selects (R141). -/
def serve (v : Option Service) (s : State) : Host.Outcome State Fault Refusal :=
  match v with
  | some .getc => serveGetc s
  | some .out => serveOut s
  | some .puts => servePuts s
  | some .in_ => serveIn s
  | some .putsp => servePutsp s
  | some .halt => serveHalt s
  | none => serveBadVector s

/-- R140, any vector: `x[7] <- pc`, then the routine selected by the vector. -/
def execTrap (v : BitVec 8) (s : State) : Host.Outcome State Fault Refusal := serve (serviceOf v) (enterTrap s)

/-- TRAP 0x20 (R142). -/
def execGetc (s : State) : Host.Outcome State Fault Refusal := serveGetc (enterTrap s)
/-- TRAP 0x21 (R143). -/
def execOut (s : State) : Host.Outcome State Fault Refusal := serveOut (enterTrap s)
/-- TRAP 0x22 (R144). -/
def execPuts (s : State) : Host.Outcome State Fault Refusal := servePuts (enterTrap s)
/-- TRAP 0x23 (R145). -/
def execIn (s : State) : Host.Outcome State Fault Refusal := serveIn (enterTrap s)
/-- TRAP 0x24 (R146). -/
def execPutsp (s : State) : Host.Outcome State Fault Refusal := servePutsp (enterTrap s)
/-- TRAP 0x25 (R147). -/
def execHalt (s : State) : Host.Outcome State Fault Refusal := serveHalt (enterTrap s)

end Sys2Proof.Machine
end

