-- ==== Sys2Proof/Machine/Step.lean ====
section
/-! DEFINITION. One step: fetch, program-counter increment, decode, execute (40_execution_cycle.md R80, R85). -/

namespace Sys2Proof.Machine

/-- R85. A HALTED machine takes no step (10_state.md R31). -/
def step (s : State) : Host.Outcome State Fault Refusal :=
  match s.run with
  | .halted st => .fault (.halted st)
  | .running => thenDo (fetch s) fun p => exec (decode p.1) p.2

/-- The state with the word of an instruction stored where `step` fetches next; a raw array write, as the loader's is
(70_reset_and_hazards.md R193; log 19). At pc = 0xFE00 no stored word can be fetched (20_memory.md R46). -/
def State.withFetchWord (s : State) (nbits w : Nat) : State :=
  s.setWord s.pc (BitVec.ofNat 16 (w % 2 ^ nbits))

end Sys2Proof.Machine
end

