-- ==== Sys2Proof/Machine/Environment.lean ====
section
/-! DEFINITION. What the environment can do to the machine between steps (00_scope.md R17): reset, the loader's
back-door writes before the run, and more input. None of it is an instruction. -/

namespace Sys2Proof.Machine

/-- The reset input (70_reset_and_hazards.md R192, D17; log 18): the state of R190; the input stream stays the
environment's. It is the only way out of HALTED. -/
def applyReset (s : State) : State := { State.reset with conIn := s.conIn }

/-- One back-door write of the loader, `M[a] <- v` with no intercept and no register touched (R193; log 19). -/
def loaderWrite (a v : Word) (s : State) : State := s.setWord a v

/-- The environment supplies more input bytes and says whether end of input follows them (00_scope.md R14; log 2). It may
do so after end of input too, and may open an ended stream again: the spec does not say whether bytes can still follow an
answer `none` (DESIGN CHOICE, log 28). -/
def supplyInput (bs : List Byte) (ended : Bool) (s : State) : State :=
  { s with conIn := ⟨s.conIn.bytes ++ bs, ended⟩ }

end Sys2Proof.Machine
end

