-- ==== Sys2Proof/Safety.lean ====
section
/-! DEFINITION. The terms statements are made in: the invariant of every run, frames, what the spec's tables say of each
instruction. -/

namespace Sys2Proof.Machine

/-- The four values the condition register can take (10_state.md R24). -/
abbrev ccLegal (c : Word) : Prop := c = 0x0000 ∨ c = 0x0001 ∨ c = 0x0002 ∨ c = 0x0004

/-- What holds of every state of a run: memory is in its canonical form, cc is one of its four values (10_state.md R24),
and a HALTED machine has x[7] = pc (44_trap.md R140: "the final state of every run has `x[7] = pc`"). -/
structure State.Inv (s : State) : Prop where
  mem : s.mem.wf = true
  cc : ccLegal s.cc
  halted : s.run ≠ .running → s.reg .r7 = s.pc

/-- The flags of a value as R25 words them: ZRO iff zero, NEG iff bit 15 is 1, POS otherwise. -/
structure FlagsDescribe (cc v : Word) : Prop where
  zro : v = 0x0000 → cc = 0x0002
  neg : v.getLsbD 15 = true → cc = 0x0004
  pos : v ≠ 0x0000 → v.getLsbD 15 = false → cc = 0x0001

/-- Memory and input stream of `t` are those of `s`: every word reads as before. -/
structure SameStore (s t : State) : Prop where
  mem : ∀ a, t.word a = s.word a
  conIn : t.conIn = s.conIn

/-- Registers outside `rs`, the trace and the run state of `t` are those of `s`. -/
structure SameCoreBut (rs : List Reg) (s t : State) : Prop where
  regs : ∀ r, r ∉ rs → t.reg r = s.reg r
  conOut : t.conOut = s.conOut
  run : t.run = s.run

/-- Registers outside `rs` and the run state of `t` are those of `s`; the trace has grown by `es`. -/
structure EmitsBut (rs : List Reg) (es : List ConEvent) (s t : State) : Prop where
  regs : ∀ r, r ∉ rs → t.reg r = s.reg r
  conOut : t.conOut = s.conOut ++ es
  run : t.run = s.run

/-- The input port has an answer: a byte, or end of input (00_scope.md R14). -/
abbrev State.portAnswers (s : State) : Prop := s.conIn.bytes ≠ [] ∨ s.conIn.ended = true

/-- The words of a string from an address on: none is at 0xFE00, each is non-zero, and the word 0 follows
(44_trap.md R144). -/
def StringAt (s : State) : Word → List Word → Prop
  | a, [] => a ≠ 0xFE00 ∧ s.word a = 0x0000
  | a, c :: cs => a ≠ 0xFE00 ∧ s.word a = c ∧ c ≠ 0x0000 ∧ StringAt s (a + 1) cs

/-- The words of a string read through `memRead` from an address on, polls included: each is non-zero, and the word 0
follows; `t` is the state after the last read (44_trap.md R144, 20_memory.md R46). -/
def StringReads : State → Word → List Word → State → Prop
  | s, a, [], t => memRead a s = .next (0x0000, t)
  | s, a, c :: cs, t => c ≠ 0x0000 ∧ ∃ m, memRead a s = .next (c, m) ∧ StringReads m (a + 1) cs t

/-- `t` is what zero or more reads through `memRead` make of `s`: its memory differs from that of `s` by their polls alone
(20_memory.md R43, R46). -/
inductive ReadsLeadTo : State → State → Prop where
  | none (s : State) : ReadsLeadTo s s
  | read {s m t : State} {a v : Word} : memRead a s = .next (v, m) → ReadsLeadTo m t → ReadsLeadTo s t

/-- The register an instruction defines and sets the flags from, if any (10_state.md R26, D10). -/
def flagSource : Instr → Option Reg
  | .add dr _ _ => some dr
  | .addi dr _ _ => some dr
  | .and dr _ _ => some dr
  | .andi dr _ _ => some dr
  | .not dr _ => some dr
  | .ld dr _ => some dr
  | .ldi dr _ => some dr
  | .ldr dr _ _ => some dr
  | .lea dr _ => some dr
  | .getc => some .r0
  | .in_ => some .r0
  | .trap v => if v = 0x20 ∨ v = 0x23 then some .r0 else none
  | .br _ _ _ _ => none
  | .st _ _ => none
  | .jsr _ => none
  | .jsrr _ => none
  | .str _ _ _ => none
  | .rti => none
  | .sti _ _ => none
  | .jmp _ => none
  | .res => none
  | .out => none
  | .puts => none
  | .putsp => none
  | .halt => none
  | .ret => none
  | .nop _ => none

/-- Whether an instruction writes the link to x[7]: JSR, JSRR, TRAP with every vector (10_state.md R34). -/
def writesLink : Instr → Bool
  | .jsr _ => true
  | .jsrr _ => true
  | .trap _ => true
  | .getc => true
  | .out => true
  | .puts => true
  | .in_ => true
  | .putsp => true
  | .halt => true
  | .br _ _ _ _ => false
  | .add _ _ _ => false
  | .addi _ _ _ => false
  | .ld _ _ => false
  | .st _ _ => false
  | .and _ _ _ => false
  | .andi _ _ _ => false
  | .ldr _ _ _ => false
  | .str _ _ _ => false
  | .rti => false
  | .not _ _ => false
  | .ldi _ _ => false
  | .sti _ _ => false
  | .jmp _ => false
  | .res => false
  | .lea _ _ => false
  | .ret => false
  | .nop _ => false

/-- Whether an instruction can write pc itself: BR, JMP, RET, JSR, JSRR (10_state.md R22). -/
def transfersControl : Instr → Bool
  | .br _ _ _ _ => true
  | .jmp _ => true
  | .ret => true
  | .jsr _ => true
  | .jsrr _ => true
  | .add _ _ _ => false
  | .addi _ _ _ => false
  | .ld _ _ => false
  | .st _ _ => false
  | .and _ _ _ => false
  | .andi _ _ _ => false
  | .ldr _ _ _ => false
  | .str _ _ _ => false
  | .rti => false
  | .not _ _ => false
  | .ldi _ _ => false
  | .sti _ _ => false
  | .res => false
  | .lea _ _ => false
  | .trap _ => false
  | .getc => false
  | .out => false
  | .puts => false
  | .in_ => false
  | .putsp => false
  | .halt => false
  | .nop _ => false

/-- Whether an instruction stores to memory: ST, STI, STR (10_state.md R34). -/
def stores : Instr → Bool
  | .st _ _ => true
  | .sti _ _ => true
  | .str _ _ _ => true
  | .br _ _ _ _ => false
  | .add _ _ _ => false
  | .addi _ _ _ => false
  | .ld _ _ => false
  | .jsr _ => false
  | .jsrr _ => false
  | .and _ _ _ => false
  | .andi _ _ _ => false
  | .ldr _ _ _ => false
  | .rti => false
  | .not _ _ => false
  | .ldi _ _ => false
  | .jmp _ => false
  | .res => false
  | .lea _ _ => false
  | .trap _ => false
  | .getc => false
  | .out => false
  | .puts => false
  | .in_ => false
  | .putsp => false
  | .halt => false
  | .ret => false
  | .nop _ => false

/-- Whether an instruction reads memory after its fetch: the loads, the pointer read of STI, the strings of PUTS and
PUTSP (10_state.md R34, 43_load_store.md R127, 44_trap.md R141). -/
def readsMemory : Instr → Bool
  | .st _ _ => false
  | .sti _ _ => true
  | .str _ _ _ => false
  | .br _ _ _ _ => false
  | .add _ _ _ => false
  | .addi _ _ _ => false
  | .ld _ _ => true
  | .jsr _ => false
  | .jsrr _ => false
  | .and _ _ _ => false
  | .andi _ _ _ => false
  | .ldr _ _ _ => true
  | .rti => false
  | .not _ _ => false
  | .ldi _ _ => true
  | .jmp _ => false
  | .res => false
  | .lea _ _ => false
  | .trap v => decide (v = 0x22 ∨ v = 0x24)
  | .getc => false
  | .out => false
  | .puts => true
  | .in_ => false
  | .putsp => true
  | .halt => false
  | .ret => false
  | .nop _ => false

end Sys2Proof.Machine
end

