-- ==== Sys2Proof/Certificates/Slice0/Obligations.lean ====
section
/-! DEFINITION. The statements for the provers. In every statement about `exec`, `s` is the state at dispatch, with pc
already incremented (00_scope.md R16, 40_execution_cycle.md R82). -/

open Sys2Proof Sys2Proof.Machine

/-! ## Encoding -/

/-- The example words of 30_encoding.md R77 (computed by the spec from the field tables) decode to the instructions they
are examples of; 0xC1C0 and 0xF025 to the refinement rows RET and HALT (log 20). -/
def Obligations.SpecExampleWordsDecode : Prop :=
  decode 0x1025 = .addi .r0 .r0 5 ∧ decode 0x14C4 = .add .r2 .r3 .r4 ∧ decode 0x5020 = .andi .r0 .r0 0 ∧
  decode 0x92BF = .not .r1 .r2 ∧ decode 0x05FE = .br false true false 0x1FE ∧ decode 0x2203 = .ld .r1 3 ∧
  decode 0x68BB = .ldr .r4 .r2 0x3B ∧ decode 0x4802 = .jsr 2 ∧ decode 0x40C0 = .jsrr .r3 ∧
  decode 0xC1C0 = .ret ∧ decode 0xE002 = .lea .r0 2 ∧ decode 0xF025 = .halt

/-- Decoding an encoded well-formed instruction gives it back, with every operand at every value. -/
def Obligations.DecodeOfEncodeIsTheInstruction : Prop :=
  ∀ i : Instr, i.wf = true → decode (encode i) = i

/-- Every word decodes to a well-formed instruction whose row of the opcode table the word belongs to. A refinement
row's words go to the refinement row (the model's choice, log 20). -/
def Obligations.EveryWordDecodesIntoItsTableRow : Prop :=
  ∀ w : Word, (decode w).wf = true ∧ (decode w).row.has w = true

/-- The 19 primary rows partition the 65,536 words (30_encoding.md R78). -/
def Obligations.PrimaryRowsPartitionTheWords : Prop :=
  ∀ w : Word, ∃ r, primaryRows.filter (fun r => r.has w) = [r]

/-- Encoding what a word decodes to gives the word back but for the bits its row ignores: no other bit is dropped. -/
def Obligations.ReencodingKeepsEveryUsedBit : Prop :=
  ∀ w : Word, encode (decode w) &&& ~~~ (decode w).row.ignored = w &&& ~~~ (decode w).row.ignored

/-- Two words that differ only in bits the first one's row ignores decode to the same instruction (30_encoding.md R72,
the spec's decision D7). -/
def Obligations.IgnoredBitsSelectNothing : Prop :=
  ∀ w v : Word, w &&& ~~~ (decode w).row.ignored = v &&& ~~~ (decode w).row.ignored → decode v = decode w

/-! ## Operand forms and flags -/

/-- R11: `sext_N` keeps the low N bits and copies the sign bit into all higher bits; `zext_8` clears bits [15:8]. -/
def Obligations.SignExtensionCopiesTheSignBit : Prop :=
  (∀ v : BitVec 5, (sext5 v).setWidth 5 = v ∧ ∀ i, 5 ≤ i → i < 16 → (sext5 v).getLsbD i = v.getLsbD 4) ∧
  (∀ v : BitVec 6, (sext6 v).setWidth 6 = v ∧ ∀ i, 6 ≤ i → i < 16 → (sext6 v).getLsbD i = v.getLsbD 5) ∧
  (∀ v : BitVec 9, (sext9 v).setWidth 9 = v ∧ ∀ i, 9 ≤ i → i < 16 → (sext9 v).getLsbD i = v.getLsbD 8) ∧
  (∀ v : BitVec 11, (sext11 v).setWidth 11 = v ∧ ∀ i, 11 ≤ i → i < 16 → (sext11 v).getLsbD i = v.getLsbD 10) ∧
  (∀ b : Byte, (zext8 b).toNat = b.toNat)

/-- R25: `setcc(i)` overwrites cc with ZRO iff x[i] = 0, NEG iff bit 15 of x[i] is 1, POS otherwise, and changes nothing
else. -/
def Obligations.SetccDerivesTheFlagsFromTheRegister : Prop :=
  ∀ (r : Reg) (s : State),
    ((setcc r s).cc = 0x0002 ↔ s.reg r = 0x0000) ∧
    ((setcc r s).cc = 0x0004 ↔ (s.reg r).getLsbD 15 = true) ∧
    ((setcc r s).cc = 0x0001 ↔ s.reg r ≠ 0x0000 ∧ (s.reg r).getLsbD 15 = false) ∧
    setcc r s = { s with cc := (setcc r s).cc }

/-! ## Operate instructions -/

/-- ADD, register form (41_operate.md R100), with any value in the ignored bits [4:3] (D7). -/
def Obligations.AddRegisterSumsAndSetsFlags : Prop :=
  ∀ dr sr1 sr2 : Reg,
    (∀ x, decode (formatOPR 0x1 dr.bits sr1.bits x sr2.bits) = .add dr sr1 sr2) ∧
    ∀ s : State, ∃ t, exec (.add dr sr1 sr2) s = .next t ∧
      t.reg dr = s.reg sr1 + s.reg sr2 ∧ FlagsDescribe t.cc (s.reg sr1 + s.reg sr2) ∧ t.pc = s.pc ∧
      SameCoreBut [dr] s t ∧ SameStore s t

/-- R101: ADD, immediate form. -/
def Obligations.AddImmediateSumsAndSetsFlags : Prop :=
  ∀ (dr sr1 : Reg) (imm5 : BitVec 5),
    decode (formatOPI 0x1 dr.bits sr1.bits imm5) = .addi dr sr1 imm5 ∧
    ∀ s : State, ∃ t, exec (.addi dr sr1 imm5) s = .next t ∧
      t.reg dr = s.reg sr1 + imm5.signExtend 16 ∧ FlagsDescribe t.cc (s.reg sr1 + imm5.signExtend 16) ∧ t.pc = s.pc ∧
      SameCoreBut [dr] s t ∧ SameStore s t

/-- AND, register form (41_operate.md R102), with any value in the ignored bits [4:3] (D7). -/
def Obligations.AndRegisterMasksAndSetsFlags : Prop :=
  ∀ dr sr1 sr2 : Reg,
    (∀ x, decode (formatOPR 0x5 dr.bits sr1.bits x sr2.bits) = .and dr sr1 sr2) ∧
    ∀ s : State, ∃ t, exec (.and dr sr1 sr2) s = .next t ∧
      t.reg dr = s.reg sr1 &&& s.reg sr2 ∧ FlagsDescribe t.cc (s.reg sr1 &&& s.reg sr2) ∧ t.pc = s.pc ∧
      SameCoreBut [dr] s t ∧ SameStore s t

/-- R103: AND, immediate form; the immediate is sign-extended before the AND. -/
def Obligations.AndImmediateMasksAndSetsFlags : Prop :=
  ∀ (dr sr1 : Reg) (imm5 : BitVec 5),
    decode (formatOPI 0x5 dr.bits sr1.bits imm5) = .andi dr sr1 imm5 ∧
    ∀ s : State, ∃ t, exec (.andi dr sr1 imm5) s = .next t ∧
      t.reg dr = s.reg sr1 &&& imm5.signExtend 16 ∧ FlagsDescribe t.cc (s.reg sr1 &&& imm5.signExtend 16) ∧
      t.pc = s.pc ∧ SameCoreBut [dr] s t ∧ SameStore s t

/-- NOT (41_operate.md R104): the result is `0xFFFF - x[SR]`; any value in the ignored bits [5:0] (D7). -/
def Obligations.NotComplementsAndSetsFlags : Prop :=
  ∀ dr sr : Reg,
    (∀ x, decode (formatNOT 0x9 dr.bits sr.bits x) = .not dr sr) ∧
    ∀ s : State, ∃ t, exec (.not dr sr) s = .next t ∧
      t.reg dr = 0xFFFF - s.reg sr ∧ FlagsDescribe t.cc (0xFFFF - s.reg sr) ∧ t.pc = s.pc ∧
      SameCoreBut [dr] s t ∧ SameStore s t

/-! ## Control transfer -/

/-- BR (42_control.md R110): with a mask that tests something it is taken exactly when a tested flag is set, bit 11 with
0x4, bit 10 with 0x2, bit 9 with 0x1 (the spec's decision D8), and writes nothing but pc. -/
def Obligations.BranchIsTakenOnATestedFlag : Prop :=
  ∀ (n z p : Bool) (off9 : BitVec 9),
    ((n || z || p) = true → decode (formatBR 0x0 n z p off9) = .br n z p off9) ∧
    ∀ s : State, ∃ t, exec (.br n z p off9) s = .next t ∧
      ((n = true ∧ s.cc.getLsbD 2 = true) ∨ (z = true ∧ s.cc.getLsbD 1 = true) ∨ (p = true ∧ s.cc.getLsbD 0 = true) →
        t.pc = s.pc + off9.signExtend 16) ∧
      (¬((n = true ∧ s.cc.getLsbD 2 = true) ∨ (z = true ∧ s.cc.getLsbD 1 = true) ∨
          (p = true ∧ s.cc.getLsbD 0 = true)) → t.pc = s.pc) ∧
      t.cc = s.cc ∧ SameCoreBut [] s t ∧ SameStore s t

/-- A BR word with n = z = p = 0 decodes to NOP and changes nothing (42_control.md R111 (a), derived by the spec; the
constructor is the model's, log 20). Every BR falls through while cc = 0x0000 (R111 (b)). -/
def Obligations.UntestedBranchIsANoOperation : Prop :=
  ∀ (off9 : BitVec 9) (s : State),
    decode (formatBR 0x0 false false false off9) = .nop off9 ∧
    (∃ t, exec (.nop off9) s = .next t ∧ t = s) ∧
    ∀ n z p, s.cc = 0x0000 → exec (.br n z p off9) s = .next s

/-- JMP and its BaseR = 7 row RET (42_control.md R112, 30_encoding.md R76), any value in the ignored bits (D7): pc takes
the base register's value and nothing else changes. -/
def Obligations.JumpGoesToTheBaseRegister : Prop :=
  ∀ (base : Reg) (x : BitVec 3) (y : BitVec 6),
    (base ≠ .r7 → decode (formatJMP 0xC x base.bits y) = .jmp base) ∧
    decode (formatJMP 0xC x Reg.r7.bits y) = .ret ∧
    ∀ s : State,
      (∃ t, exec (.jmp base) s = .next t ∧ t.pc = s.reg base ∧ t.cc = s.cc ∧ SameCoreBut [] s t ∧ SameStore s t) ∧
      (∃ t, exec .ret s = .next t ∧ t.pc = s.reg .r7 ∧ t.cc = s.cc ∧ SameCoreBut [] s t ∧ SameStore s t)

/-- R113: JSR saves pc in R7 and goes to pc + sext_11; cc is not recomputed. -/
def Obligations.JsrLinksAndGoesPcRelative : Prop :=
  ∀ off11 : BitVec 11,
    decode (formatJSR 0x4 off11) = .jsr off11 ∧
    ∀ s : State, ∃ t, exec (.jsr off11) s = .next t ∧
      t.reg .r7 = s.pc ∧ t.pc = s.pc + off11.signExtend 16 ∧ t.cc = s.cc ∧
      SameCoreBut [.r7] s t ∧ SameStore s t

/-- JSRR (42_control.md R114): the link is written first, so JSRR R7 goes to the next word (the spec's decision D9); any
value in the ignored bits (D7). -/
def Obligations.JsrrLinksBeforeItReadsTheBase : Prop :=
  ∀ base : Reg,
    (∀ x y, decode (formatJSRR 0x4 x base.bits y) = .jsrr base) ∧
    ∀ s : State, ∃ t, exec (.jsrr base) s = .next t ∧
      t.reg .r7 = s.pc ∧ (base = .r7 → t.pc = s.pc) ∧ (base ≠ .r7 → t.pc = s.reg base) ∧ t.cc = s.cc ∧
      SameCoreBut [.r7] s t ∧ SameStore s t

/-! ## Memory -/

/-- MemRead (20_memory.md R43, R45): plain at every address but 0xFE00. A read of 0xFE00 consumes one answer of the
port: a non-zero byte goes to 0xFE02 zero-extended and the status is 0x8000 (the spec's decisions D4, D5); a byte 0x00
or end of input gives status 0 and leaves 0xFE02; with no answer the step waits (R88, log 3). -/
def Obligations.MemReadPollsOnlyAtTheKeyboardStatus : Prop :=
  ∀ s : State,
    (∀ a, a ≠ 0xFE00 → memRead a s = .next (s.word a, s)) ∧
    (∀ b bs, s.conIn.bytes = b :: bs → b ≠ 0x00 → ∃ m, memRead 0xFE00 s = .next (0x8000, m) ∧
      m.word 0xFE00 = 0x8000 ∧ m.word 0xFE02 = b.setWidth 16 ∧
      (∀ a, a ≠ 0xFE00 → a ≠ 0xFE02 → m.word a = s.word a) ∧
      m.conIn = ⟨bs, s.conIn.ended⟩ ∧ m.pc = s.pc ∧ m.cc = s.cc ∧ SameCoreBut [] s m) ∧
    (∀ b bs, s.conIn.bytes = b :: bs → b = 0x00 → ∃ m, memRead 0xFE00 s = .next (0x0000, m) ∧
      m.word 0xFE00 = 0x0000 ∧ (∀ a, a ≠ 0xFE00 → m.word a = s.word a) ∧
      m.conIn = ⟨bs, s.conIn.ended⟩ ∧ m.pc = s.pc ∧ m.cc = s.cc ∧ SameCoreBut [] s m) ∧
    (s.conIn.bytes = [] → s.conIn.ended = true → ∃ m, memRead 0xFE00 s = .next (0x0000, m) ∧
      m.word 0xFE00 = 0x0000 ∧ (∀ a, a ≠ 0xFE00 → m.word a = s.word a) ∧
      m.conIn = s.conIn ∧ m.pc = s.pc ∧ m.cc = s.cc ∧ SameCoreBut [] s m) ∧
    (s.conIn.bytes = [] → s.conIn.ended = false → memRead 0xFE00 s = .fault (.inputPending s))

/-- MemWrite stores unconditionally, at 0xFE00 and 0xFE02 too; no address has a write side effect (20_memory.md R44). A
value stored at 0xFE00 lasts until the next MemRead of 0xFE00, which overwrites it (R43) and leaves no trace of it: that
holds with KBSR_READY_WRITE = assign, the spec's decision D4 that the model fixes (log 5). A value stored at 0xFE02 lasts
until a poll that receives a non-zero byte. -/
def Obligations.MemWriteStoresAndDoesNothingElse : Prop :=
  ∀ (a v : Word) (s : State),
    (memWrite a v s).word a = v ∧ (∀ b, b ≠ a → (memWrite a v s).word b = s.word b) ∧
    (memWrite a v s).conIn = s.conIn ∧ (memWrite a v s).pc = s.pc ∧ (memWrite a v s).cc = s.cc ∧
    SameCoreBut [] s (memWrite a v s) ∧
    (∀ b, b ≠ 0xFE00 → memRead b (memWrite a v s) = .next (if b = a then v else s.word b, memWrite a v s)) ∧
    (∀ b x m, memRead b (memWrite 0xFE00 v s) = .next (x, m) → b ≠ 0xFE00 → m.word 0xFE00 = v) ∧
    (∀ x m, memRead 0xFE00 (memWrite 0xFE00 v s) = .next (x, m) →
      ∃ n, memRead 0xFE00 s = .next (x, n) ∧ ∀ b, m.word b = n.word b) ∧
    (∀ b x m, memRead b (memWrite 0xFE02 v s) = .next (x, m) →
      ¬(b = 0xFE00 ∧ ∃ k ks, s.conIn.bytes = k :: ks ∧ k ≠ 0x00) → m.word 0xFE02 = v)

/-- Memories in canonical form that read alike at every address are the same list (the model's form, log 1). -/
def Obligations.CanonicalMemoriesThatReadAlikeAreEqual : Prop :=
  ∀ m n : Memory, m.wf = true → n.wf = true → (∀ a : Word, m.get a.toNat = n.get a.toNat) → m = n

/-! ## Loads -/

/-- R120: LD. Unless the address is 0xFE00 and the port has not answered, it completes. -/
def Obligations.LdLoadsPcRelative : Prop :=
  ∀ (dr : Reg) (off9 : BitVec 9),
    decode (formatPC9 0x2 dr.bits off9) = .ld dr off9 ∧
    ∀ s : State, (s.pc + off9.signExtend 16 = 0xFE00 → s.portAnswers) →
      ∃ v m t, memRead (s.pc + off9.signExtend 16) s = .next (v, m) ∧
        (s.pc + off9.signExtend 16 ≠ 0xFE00 → v = s.word (s.pc + off9.signExtend 16) ∧ m = s) ∧
        exec (.ld dr off9) s = .next t ∧ t.reg dr = v ∧ FlagsDescribe t.cc v ∧ t.pc = s.pc ∧
        SameCoreBut [dr] s t ∧ SameStore m t

/-- R121: LDI. The pointer is read first, then the word it points to; both through MemRead. -/
def Obligations.LdiLoadsThroughThePointer : Prop :=
  ∀ (dr : Reg) (off9 : BitVec 9),
    decode (formatPC9 0xA dr.bits off9) = .ldi dr off9 ∧
    ∀ s : State,
      (s.pc + off9.signExtend 16 = 0xFE00 ∨ s.word (s.pc + off9.signExtend 16) = 0xFE00 → s.portAnswers) →
      ∃ p m v m' t, memRead (s.pc + off9.signExtend 16) s = .next (p, m) ∧ memRead p m = .next (v, m') ∧
        (s.pc + off9.signExtend 16 ≠ 0xFE00 → p = s.word (s.pc + off9.signExtend 16) ∧ m = s) ∧
        (p ≠ 0xFE00 → v = m.word p ∧ m' = m) ∧
        exec (.ldi dr off9) s = .next t ∧ t.reg dr = v ∧ FlagsDescribe t.cc v ∧ t.pc = s.pc ∧
        SameCoreBut [dr] s t ∧ SameStore m' t

/-- R122: LDR. The address is computed from the base register's old value, DR = BaseR too. -/
def Obligations.LdrLoadsBasePlusOffset : Prop :=
  ∀ (dr base : Reg) (off6 : BitVec 6),
    decode (formatBASE6 0x6 dr.bits base.bits off6) = .ldr dr base off6 ∧
    ∀ s : State, (s.reg base + off6.signExtend 16 = 0xFE00 → s.portAnswers) →
      ∃ v m t, memRead (s.reg base + off6.signExtend 16) s = .next (v, m) ∧
        (s.reg base + off6.signExtend 16 ≠ 0xFE00 → v = s.word (s.reg base + off6.signExtend 16) ∧ m = s) ∧
        exec (.ldr dr base off6) s = .next t ∧ t.reg dr = v ∧ FlagsDescribe t.cc v ∧ t.pc = s.pc ∧
        SameCoreBut [dr] s t ∧ SameStore m t

/-- R123: LEA. The address itself goes to DR and sets the flags; no memory access, so no poll at 0xFE00 either. -/
def Obligations.LeaLoadsTheAddressItself : Prop :=
  ∀ (dr : Reg) (off9 : BitVec 9),
    decode (formatPC9 0xE dr.bits off9) = .lea dr off9 ∧
    ∀ s : State, ∃ t, exec (.lea dr off9) s = .next t ∧
      t.reg dr = s.pc + off9.signExtend 16 ∧ FlagsDescribe t.cc (s.pc + off9.signExtend 16) ∧ t.pc = s.pc ∧
      SameCoreBut [dr] s t ∧ SameStore s t

/-- With a port that has not answered, a load at 0xFE00 and the pointer read of LDI or STI there wait, and GETC and IN
wait (40_execution_cycle.md R88; the named stop is the model's, log 3). -/
def Obligations.ReadsOfTheKeyboardStatusWaitForTheInput : Prop :=
  ∀ s : State, s.conIn.bytes = [] → s.conIn.ended = false →
    (∀ dr off9, s.pc + off9.signExtend 16 = 0xFE00 →
      exec (.ld dr off9) s = .fault (.inputPending s) ∧ exec (.ldi dr off9) s = .fault (.inputPending s) ∧
      exec (.sti dr off9) s = .fault (.inputPending s)) ∧
    (∀ dr off9, s.pc + off9.signExtend 16 ≠ 0xFE00 → s.word (s.pc + off9.signExtend 16) = 0xFE00 →
      exec (.ldi dr off9) s = .fault (.inputPending s)) ∧
    (∀ dr base off6, s.reg base + off6.signExtend 16 = 0xFE00 →
      exec (.ldr dr base off6) s = .fault (.inputPending s)) ∧
    (∃ u, exec .getc s = .fault (.inputPending u)) ∧ (∃ u, exec .in_ s = .fault (.inputPending u))

/-! ## Stores -/

/-- R124: ST. It stores SR at pc + sext_9 and nowhere else; no flag, no poll. -/
def Obligations.StStoresPcRelative : Prop :=
  ∀ (sr : Reg) (off9 : BitVec 9),
    decode (formatPC9 0x3 sr.bits off9) = .st sr off9 ∧
    ∀ s : State, ∃ t, exec (.st sr off9) s = .next t ∧
      (∀ a, a = s.pc + off9.signExtend 16 → t.word a = s.reg sr ∧ ∀ b, b ≠ a → t.word b = s.word b) ∧
      t.conIn = s.conIn ∧ t.pc = s.pc ∧ t.cc = s.cc ∧ SameCoreBut [] s t

/-- R125: STI. The pointer is read through MemRead; SR is stored where it points and nowhere else. -/
def Obligations.StiStoresThroughThePointer : Prop :=
  ∀ (sr : Reg) (off9 : BitVec 9),
    decode (formatPC9 0xB sr.bits off9) = .sti sr off9 ∧
    ∀ s : State, (s.pc + off9.signExtend 16 = 0xFE00 → s.portAnswers) →
      ∃ p m t, memRead (s.pc + off9.signExtend 16) s = .next (p, m) ∧
        (s.pc + off9.signExtend 16 ≠ 0xFE00 → p = s.word (s.pc + off9.signExtend 16) ∧ m = s) ∧
        exec (.sti sr off9) s = .next t ∧ t.word p = s.reg sr ∧ (∀ b, b ≠ p → t.word b = m.word b) ∧
        t.conIn = m.conIn ∧ t.pc = s.pc ∧ t.cc = s.cc ∧ SameCoreBut [] s t

/-- R126: STR. It stores SR at x[BaseR] + sext_6 and nowhere else; SR = BaseR stores the base value. -/
def Obligations.StrStoresBasePlusOffset : Prop :=
  ∀ (sr base : Reg) (off6 : BitVec 6),
    decode (formatBASE6 0x7 sr.bits base.bits off6) = .str sr base off6 ∧
    ∀ s : State, ∃ t, exec (.str sr base off6) s = .next t ∧
      (∀ a, a = s.reg base + off6.signExtend 16 → t.word a = s.reg sr ∧ ∀ b, b ≠ a → t.word b = s.word b) ∧
      t.conIn = s.conIn ∧ t.pc = s.pc ∧ t.cc = s.cc ∧ SameCoreBut [] s t

/-- A word stored at the address fetched next is the instruction the next step runs (20_memory.md R55, derived by the
spec), 0xFE00 apart, where the fetch polls (R46). -/
def Obligations.AStoredWordIsTheNextInstruction : Prop :=
  ∀ s t : State, s.run = .running → s.pc ≠ 0xFE00 →
    (∀ sr, exec (.st sr 0) s = .next t → step t = exec (decode (s.reg sr)) (t.setPc (s.pc + 1))) ∧
    (∀ sr base off6, s.reg base + off6.signExtend 16 = s.pc → exec (.str sr base off6) s = .next t →
      step t = exec (decode (s.reg sr)) (t.setPc (s.pc + 1))) ∧
    (∀ sr off9, s.pc + off9.signExtend 16 ≠ 0xFE00 → s.word (s.pc + off9.signExtend 16) = s.pc →
      exec (.sti sr off9) s = .next t → step t = exec (decode (s.reg sr)) (t.setPc (s.pc + 1)))

/-! ## Traps -/

/-- Refinement rows run as their primary rows: TRAP with a service's vector is the service, JMP R7 is RET, BR with mask
0 is NOP; and a TRAP word decodes to the service its vector names, whatever its bits [11:8] (44_trap.md R141,
30_encoding.md R76, D7; the split into constructors is the model's, log 20). -/
def Obligations.RefinementRowsRunAsTheirPrimaryRow : Prop :=
  ∀ s : State,
    exec (.trap 0x20) s = exec .getc s ∧ exec (.trap 0x21) s = exec .out s ∧ exec (.trap 0x22) s = exec .puts s ∧
    exec (.trap 0x23) s = exec .in_ s ∧ exec (.trap 0x24) s = exec .putsp s ∧ exec (.trap 0x25) s = exec .halt s ∧
    exec (.jmp .r7) s = exec .ret s ∧ (∀ off9, exec (.br false false false off9) s = exec (.nop off9) s) ∧
    ∀ x, decode (formatTRAP 0xF x 0x20) = .getc ∧ decode (formatTRAP 0xF x 0x21) = .out ∧
      decode (formatTRAP 0xF x 0x22) = .puts ∧ decode (formatTRAP 0xF x 0x23) = .in_ ∧
      decode (formatTRAP 0xF x 0x24) = .putsp ∧ decode (formatTRAP 0xF x 0x25) = .halt

/-- Every TRAP that completes, whatever its vector, has x[7] = pc = the address after it, changes no register but R0 and
R7, and writes no memory word but the two keyboard words a string read can poll (44_trap.md R140, R149). -/
def Obligations.EveryTrapLinksAndStays : Prop :=
  ∀ (v : BitVec 8) (s t : State), exec (.trap v) s = .next t →
    t.reg .r7 = s.pc ∧ t.pc = s.pc ∧ (∀ r, r ≠ .r0 → r ≠ .r7 → t.reg r = s.reg r) ∧
    (∀ a, a ≠ 0xFE00 → a ≠ 0xFE02 → t.word a = s.word a) ∧ (t.run = s.run ∨ ∃ st, t.run = .halted st)

/-- GETC (44_trap.md R142): the next byte to x[0] zero-extended, no echo; it sets the flags from x[0] (the spec's
decision D10). At end of input it does not complete (D12), and it waits for a port that has not answered (R88); those
named stops are the model's (log 3). -/
def Obligations.GetcStoresTheNextByte : Prop :=
  ∀ s : State,
    (∀ b bs, s.conIn.bytes = b :: bs → ∃ t, exec .getc s = .next t ∧
      t.reg .r0 = b.setWidth 16 ∧ t.reg .r7 = s.pc ∧ FlagsDescribe t.cc (b.setWidth 16) ∧ t.pc = s.pc ∧
      (∀ a, t.word a = s.word a) ∧ t.conIn = ⟨bs, s.conIn.ended⟩ ∧ SameCoreBut [.r0, .r7] s t) ∧
    (s.conIn.bytes = [] → s.conIn.ended = true → ∃ u, exec .getc s = .fault (.endOfInput u)) ∧
    (s.conIn.bytes = [] → s.conIn.ended = false → ∃ u, exec .getc s = .fault (.inputPending u))

/-- IN (44_trap.md R145): prompt, the next byte echoed, then to x[0] zero-extended (D11, D15), flags from x[0] (D10). At
end of input, and while the port has not answered, it stops after the prompt (D12, R88; log 3). -/
def Obligations.InPromptsEchoesAndStoresTheByte : Prop :=
  ∀ s : State,
    (∀ b bs, s.conIn.bytes = b :: bs → ∃ t, exec .in_ s = .next t ∧
      t.reg .r0 = b.setWidth 16 ∧ t.reg .r7 = s.pc ∧ FlagsDescribe t.cc (b.setWidth 16) ∧ t.pc = s.pc ∧
      (∀ a, t.word a = s.word a) ∧ t.conIn = ⟨bs, s.conIn.ended⟩ ∧
      EmitsBut [.r0, .r7] [.notice .inPrompt, .char b] s t) ∧
    (s.conIn.bytes = [] → s.conIn.ended = true → ∃ u, exec .in_ s = .fault (.endOfInput u) ∧
      u.conOut = s.conOut ++ [.notice .inPrompt]) ∧
    (s.conIn.bytes = [] → s.conIn.ended = false → ∃ u, exec .in_ s = .fault (.inputPending u) ∧
      u.conOut = s.conOut ++ [.notice .inPrompt])

/-- R143: OUT, vector 0x21, writes the low byte of R0 as one character, with no flush; R0 and the flags stay. -/
def Obligations.OutWritesTheLowByteOfR0 : Prop :=
  ∀ s : State, ∃ t, exec .out s = .next t ∧ exec (.trap 0x21) s = .next t ∧ t.reg .r7 = s.pc ∧ t.pc = s.pc ∧ t.cc = s.cc ∧
    EmitsBut [.r7] [.char ((s.reg .r0).extractLsb' 0 8)] s t ∧ SameStore s t

/-- PUTS (44_trap.md R144) over a string that does not touch 0xFE00: the low byte of each word in order, then Flush; no
register but R7 is written, the pointer wraps and R0 stays (the spec's decision D16). -/
def Obligations.PutsPrintsUpToTheFirstZeroWord : Prop :=
  ∀ (s : State) (cs : List Word), StringAt s (s.reg .r0) cs →
    ∃ t, exec .puts s = .next t ∧ t.reg .r7 = s.pc ∧ t.pc = s.pc ∧ t.cc = s.cc ∧
      EmitsBut [.r7] (cs.map (fun c => .char (c.extractLsb' 0 8)) ++ [.flush]) s t ∧ SameStore s t

/-- PUTSP (44_trap.md R146) over a string that does not touch 0xFE00: of each word the low byte always, then the high
byte unless zero; then Flush; no register but R7 is written (D16). -/
def Obligations.PutspPrintsPackedCharacters : Prop :=
  ∀ (s : State) (cs : List Word), StringAt s (s.reg .r0) cs →
    ∃ t, exec .putsp s = .next t ∧ t.reg .r7 = s.pc ∧ t.pc = s.pc ∧ t.cc = s.cc ∧
      EmitsBut [.r7] (cs.flatMap (fun c => .char (c.extractLsb' 0 8) ::
        (if c.extractLsb' 8 8 = 0x00 then [] else [.char (c.extractLsb' 8 8)])) ++ [.flush]) s t ∧
      SameStore s t

/-- PUTS and PUTSP over any string that ends, one that runs over 0xFE00 too: the words are those MemRead answers, polls
included (20_memory.md R46, the spec's decision D6), and memory and input stream are left as the last read left them. -/
def Obligations.StringsReadThroughAPollArePrinted : Prop :=
  ∀ (s m : State) (cs : List Word), StringReads s (s.reg .r0) cs m →
    (∃ t, exec .puts s = .next t ∧ t.reg .r7 = s.pc ∧ t.pc = s.pc ∧ t.cc = s.cc ∧
      EmitsBut [.r7] (cs.map (fun c => .char (c.extractLsb' 0 8)) ++ [.flush]) s t ∧ SameStore m t) ∧
    (∃ t, exec .putsp s = .next t ∧ t.reg .r7 = s.pc ∧ t.pc = s.pc ∧ t.cc = s.cc ∧
      EmitsBut [.r7] (cs.flatMap (fun c => .char (c.extractLsb' 0 8) ::
        (if c.extractLsb' 8 8 = 0x00 then [] else [.char (c.extractLsb' 8 8)])) ++ [.flush]) s t ∧ SameStore m t)

/-- PUTS and PUTSP never run for ever in the model, whatever memory holds: a string over 0xFE00 polls, and an input
stream listed in State is finite (20_memory.md R46; log 15). They complete, or wait for a port that has not answered. -/
def Obligations.StringOutputEndsOrWaits : Prop :=
  ∀ s : State,
    ((∃ t, exec .puts s = .next t) ∨ (s.conIn.ended = false ∧ ∃ u, exec .puts s = .fault (.inputPending u))) ∧
    ((∃ t, exec .putsp s = .next t) ∨ (s.conIn.ended = false ∧ ∃ u, exec .putsp s = .fault (.inputPending u)))

/-- R147: HALT, vector 0x25, emits its notice and a flush and ends the run with status 0; pc and x[7] hold the address after it and
nothing else changes. -/
def Obligations.HaltEndsTheRunWithSuccess : Prop :=
  ExitStatus.success.code = 0 ∧
  ∀ s : State, ∃ t, exec .halt s = .next t ∧ exec (.trap 0x25) s = .next t ∧ t.run = .halted .success ∧
    t.conOut = s.conOut ++ [.notice .halt, .flush] ∧ t.reg .r7 = s.pc ∧ t.pc = s.pc ∧ t.cc = s.cc ∧
    (∀ r, r ≠ .r7 → t.reg r = s.reg r) ∧ SameStore s t

/-- R148: a vector outside 0x20..0x25 emits the error notice and a flush and ends the run with status 1, R7 written. -/
def Obligations.AnInvalidVectorEndsTheRunWithFailure : Prop :=
  ExitStatus.failure.code = 1 ∧
  ∀ v : BitVec 8, v.toNat < 0x20 ∨ 0x25 < v.toNat →
    decode (formatTRAP 0xF 0 v) = .trap v ∧
    ∀ s : State, ∃ t, exec (.trap v) s = .next t ∧ t.run = .halted .failure ∧
      t.conOut = s.conOut ++ [.notice .badTrap, .flush] ∧ t.reg .r7 = s.pc ∧ t.pc = s.pc ∧ t.cc = s.cc ∧
      (∀ r, r ≠ .r7 → t.reg r = s.reg r) ∧ SameStore s t

/-- RTI and RES (45_reserved.md R160, R161), all 4,096 words of each (D7): a notice, and no state change. -/
def Obligations.RtiAndResOnlyEmitANotice : Prop :=
  (∀ x, decode (formatNONE 0x8 x) = .rti ∧ decode (formatNONE 0xD x) = .res) ∧
  ∀ s : State,
    (∃ t, exec .rti s = .next t ∧ t.pc = s.pc ∧ t.cc = s.cc ∧ EmitsBut [] [.notice .rti] s t ∧ SameStore s t) ∧
    (∃ t, exec .res s = .next t ∧ t.pc = s.pc ∧ t.cc = s.cc ∧ EmitsBut [] [.notice .res] s t ∧ SameStore s t)

/-! ## The step and the run -/

/-- A running machine's step fetches through MemRead, increments pc and runs the decoded instruction
(40_execution_cycle.md R81 to R85); the increment wraps at 0xFFFF (the spec's decision D1). -/
def Obligations.StepRunsTheDecodedInstruction : Prop :=
  ∀ s : State, s.run = .running →
    (s.pc ≠ 0xFE00 → step s = exec (decode (s.word s.pc)) (s.setPc (s.pc + 1))) ∧
    (∀ w m, memRead s.pc s = .next (w, m) → step s = exec (decode w) (m.setPc (s.pc + 1))) ∧
    (∀ r, memRead s.pc s = .fault r → step s = .fault r)

/-- A fetch from 0xFE00 polls: a key makes the fetched word 0x8000, which is RTI; a byte 0x00 or end of input makes it
0x0000, which is a no-operation (20_memory.md R46, derived by the spec from its decision D6). The poll consumes its byte
and writes no word but 0xFE00 and, for a key, 0xFE02 (its decisions D4, D5). -/
def Obligations.AFetchFromTheKeyboardStatusRunsRtiOrNop : Prop :=
  ∀ s : State, s.run = .running → s.pc = 0xFE00 →
    (∀ b bs, s.conIn.bytes = b :: bs → b ≠ 0x00 → ∃ t, step s = .next t ∧ t.pc = 0xFE01 ∧
      t.word 0xFE00 = 0x8000 ∧ t.word 0xFE02 = b.setWidth 16 ∧ (∀ a, a ≠ 0xFE00 → a ≠ 0xFE02 → t.word a = s.word a) ∧
      t.conIn = ⟨bs, s.conIn.ended⟩ ∧ t.cc = s.cc ∧ EmitsBut [] [.notice .rti] s t) ∧
    (∀ bs, s.conIn.bytes = 0x00 :: bs → ∃ t, step s = .next t ∧ t.pc = 0xFE01 ∧
      t.word 0xFE00 = 0x0000 ∧ (∀ a, a ≠ 0xFE00 → t.word a = s.word a) ∧
      t.conIn = ⟨bs, s.conIn.ended⟩ ∧ t.cc = s.cc ∧ SameCoreBut [] s t) ∧
    (s.conIn.bytes = [] → s.conIn.ended = true → ∃ t, step s = .next t ∧ t.pc = 0xFE01 ∧
      t.word 0xFE00 = 0x0000 ∧ (∀ a, a ≠ 0xFE00 → t.word a = s.word a) ∧
      t.conIn = s.conIn ∧ t.cc = s.cc ∧ SameCoreBut [] s t)

/-- A HALTED machine takes no step (10_state.md R31; the named stop is the model's, log 16), and neither more input nor a
loader's write changes whether it is HALTED. The reset input alone leads out of it, to the state of R190 (the spec's
decision D17); that it empties the trace and keeps the input stream is the model's choice (log 18). -/
def Obligations.HaltedIsLeftOnlyByReset : Prop :=
  (∀ (s : State) (st : ExitStatus), s.run = .halted st → step s = .fault (.halted st)) ∧
  (∀ s bs e, (supplyInput bs e s).run = s.run) ∧ (∀ s a v, (loaderWrite a v s).run = s.run) ∧
  ∀ s : State, (applyReset s).run = .running ∧ (applyReset s).pc = 0x3000 ∧ (applyReset s).cc = 0x0000 ∧
    (∀ r, (applyReset s).reg r = 0x0000) ∧ (∀ a, (applyReset s).word a = 0x0000) ∧ (applyReset s).conOut = [] ∧
    (applyReset s).conIn = s.conIn

/-- R190: after reset every general register and cc are 0x0000, pc is 0x3000, memory is zero, the machine RUNNING. -/
def Obligations.ResetZeroesAllButPc : Prop :=
  (∀ r, State.reset.reg r = 0x0000) ∧ State.reset.pc = 0x3000 ∧ State.reset.cc = 0x0000 ∧
  (∀ a, State.reset.word a = 0x0000) ∧ State.reset.run = .running

/-- The invariant holds after reset, and the environment keeps it: the loader's writes before the run, more input, the
reset input (00_scope.md R17). -/
def Obligations.LaunchStatesMeetTheInvariant : Prop :=
  State.reset.Inv ∧ (∀ s a v, s.Inv → (loaderWrite a v s).Inv) ∧ (∀ s bs e, s.Inv → (supplyInput bs e s).Inv) ∧
  ∀ s, (applyReset s).Inv

/-- Every step keeps the invariant: canonical memory, cc one of 0, 1, 2, 4 (10_state.md R24, derived by the spec), and
x[7] = pc once HALTED (44_trap.md R140). -/
def Obligations.EveryStepKeepsTheInvariant : Prop :=
  ∀ s t : State, s.Inv → step s = .next t → t.Inv

/-- A run ends exactly by TRAP 0x25 (status 0) or a TRAP with an invalid vector (status 1), and then x[7] = pc = the
address after the TRAP (40_execution_cycle.md R87; bits [11:8] of the word take no part, D7). -/
def Obligations.ARunEndsOnlyByHaltOrAnInvalidVector : Prop :=
  ∀ (s t m : State) (w : Word), memRead s.pc s = .next (w, m) → step s = .next t →
    (t.run = .halted .success ↔ w.extractLsb' 12 4 = 0xF#4 ∧ w.extractLsb' 0 8 = 0x25#8) ∧
    (t.run = .halted .failure ↔ w.extractLsb' 12 4 = 0xF#4 ∧
      ((w.extractLsb' 0 8).toNat < 0x20 ∨ 0x25 < (w.extractLsb' 0 8).toNat)) ∧
    (t.run ≠ .running → t.reg .r7 = s.pc + 1 ∧ t.pc = s.pc + 1)

/-- A running machine's step completes, or waits for a port that has not answered, or stands at GETC or IN at end of
input; it ends in nothing else (70_reset_and_hazards.md R197, 40_execution_cycle.md R89; D12, log 3, log 15). -/
def Obligations.AStepStopsOnlyForInput : Prop :=
  ∀ s : State, s.run = .running →
    (∃ t, step s = .next t) ∨ (s.conIn.ended = false ∧ ∃ u, step s = .fault (.inputPending u)) ∨
    (s.conIn.ended = true ∧ ∃ u, step s = .fault (.endOfInput u))

/-! ## Whole-machine frames -/

/-- cc is written by the instructions that define a register, from that register, and by no other (10_state.md R26; GETC
and IN by the spec's decision D10). -/
def Obligations.OnlyDefiningInstructionsSetTheFlags : Prop :=
  ∀ (i : Instr) (s t : State), exec i s = .next t →
    (∀ r, flagSource i = some r → FlagsDescribe t.cc (t.reg r)) ∧ (flagSource i = none → t.cc = s.cc)

/-- A general register is written only as DR (R0 of GETC and IN) or, R7, as the link, which then is the pc of the next
instruction (10_state.md R34, derived by the spec). -/
def Obligations.RegistersAreWrittenOnlyAsResultOrLink : Prop :=
  ∀ (i : Instr) (s t : State), exec i s = .next t →
    (∀ r, flagSource i ≠ some r → (r = .r7 → writesLink i = false) → t.reg r = s.reg r) ∧
    (writesLink i = true → t.reg .r7 = s.pc)

/-- Memory is written only by ST, STI, STR and, at the two keyboard words alone, by a poll (10_state.md R34, derived by
the spec). An instruction that neither stores nor reads memory leaves every word as it was; one that reads (the loads, the
strings) leaves every word as reads through MemRead leave it (20_memory.md R43, R46). -/
def Obligations.MemoryIsWrittenOnlyByStoresAndPolls : Prop :=
  ∀ (i : Instr) (s t : State), exec i s = .next t → stores i = false →
    (∀ a, a ≠ 0xFE00 → a ≠ 0xFE02 → t.word a = s.word a) ∧
    (readsMemory i = false → ∀ a, t.word a = s.word a) ∧
    ∃ m, ReadsLeadTo s m ∧ ∀ a, t.word a = m.word a

/-- pc is written only by BR, JMP, RET, JSR, JSRR; every other instruction leaves the incremented value
(10_state.md R22). -/
def Obligations.OnlyControlTransfersWritePc : Prop :=
  ∀ (i : Instr) (s t : State), exec i s = .next t → transfersControl i = false → t.pc = s.pc

/-- A step only appends to the trace and only consumes input, in order; it never changes whether end of input follows
(10_state.md R32, 00_scope.md R17). -/
def Obligations.AStepOnlyAppendsOutputAndConsumesInput : Prop :=
  ∀ s t : State, step s = .next t →
    (∃ es, t.conOut = s.conOut ++ es) ∧ (∃ bs, s.conIn.bytes = bs ++ t.conIn.bytes) ∧ t.conIn.ended = s.conIn.ended
end

