-- ==== Sys2Proof/Laws/State.lean ====
section
/-! SUPPORT. One lemma per field per update of State, and what each shared update is made of. -/

namespace Sys2Proof.Machine

/-! ## Registers -/

@[simp] theorem Regs.get_set (g : Regs) (r q : Reg) (v : Word) :
    (g.set r v).get q = if q = r then v else g.get q := by
  cases r <;> cases q <;> rfl

/-! ## setReg -/

@[simp] theorem setReg_regs (s : State) (r : Reg) (v : Word) : (s.setReg r v).regs = s.regs.set r v := rfl
@[simp] theorem setReg_pc (s : State) (r : Reg) (v : Word) : (s.setReg r v).pc = s.pc := rfl
@[simp] theorem setReg_cc (s : State) (r : Reg) (v : Word) : (s.setReg r v).cc = s.cc := rfl
@[simp] theorem setReg_mem (s : State) (r : Reg) (v : Word) : (s.setReg r v).mem = s.mem := rfl
@[simp] theorem setReg_run (s : State) (r : Reg) (v : Word) : (s.setReg r v).run = s.run := rfl
@[simp] theorem setReg_conIn (s : State) (r : Reg) (v : Word) : (s.setReg r v).conIn = s.conIn := rfl
@[simp] theorem setReg_conOut (s : State) (r : Reg) (v : Word) : (s.setReg r v).conOut = s.conOut := rfl
@[simp] theorem setReg_reg (s : State) (r : Reg) (v : Word) (q : Reg) :
    (s.setReg r v).reg q = if q = r then v else s.reg q := Regs.get_set ..
@[simp] theorem setReg_word (s : State) (r : Reg) (v : Word) (q : Word) : (s.setReg r v).word q = s.word q := rfl

/-! ## setPc -/

@[simp] theorem setPc_regs (s : State) (v : Word) : (s.setPc v).regs = s.regs := rfl
@[simp] theorem setPc_pc (s : State) (v : Word) : (s.setPc v).pc = v := rfl
@[simp] theorem setPc_cc (s : State) (v : Word) : (s.setPc v).cc = s.cc := rfl
@[simp] theorem setPc_mem (s : State) (v : Word) : (s.setPc v).mem = s.mem := rfl
@[simp] theorem setPc_run (s : State) (v : Word) : (s.setPc v).run = s.run := rfl
@[simp] theorem setPc_conIn (s : State) (v : Word) : (s.setPc v).conIn = s.conIn := rfl
@[simp] theorem setPc_conOut (s : State) (v : Word) : (s.setPc v).conOut = s.conOut := rfl
@[simp] theorem setPc_reg (s : State) (v : Word) (q : Reg) : (s.setPc v).reg q = s.reg q := rfl
@[simp] theorem setPc_word (s : State) (v : Word) (q : Word) : (s.setPc v).word q = s.word q := rfl

/-! ## setCc -/

@[simp] theorem setCc_regs (s : State) (v : Word) : (s.setCc v).regs = s.regs := rfl
@[simp] theorem setCc_pc (s : State) (v : Word) : (s.setCc v).pc = s.pc := rfl
@[simp] theorem setCc_cc (s : State) (v : Word) : (s.setCc v).cc = v := rfl
@[simp] theorem setCc_mem (s : State) (v : Word) : (s.setCc v).mem = s.mem := rfl
@[simp] theorem setCc_run (s : State) (v : Word) : (s.setCc v).run = s.run := rfl
@[simp] theorem setCc_conIn (s : State) (v : Word) : (s.setCc v).conIn = s.conIn := rfl
@[simp] theorem setCc_conOut (s : State) (v : Word) : (s.setCc v).conOut = s.conOut := rfl
@[simp] theorem setCc_reg (s : State) (v : Word) (q : Reg) : (s.setCc v).reg q = s.reg q := rfl
@[simp] theorem setCc_word (s : State) (v : Word) (q : Word) : (s.setCc v).word q = s.word q := rfl

/-! ## setWord -/

@[simp] theorem setWord_regs (s : State) (a v : Word) : (s.setWord a v).regs = s.regs := rfl
@[simp] theorem setWord_pc (s : State) (a v : Word) : (s.setWord a v).pc = s.pc := rfl
@[simp] theorem setWord_cc (s : State) (a v : Word) : (s.setWord a v).cc = s.cc := rfl
@[simp] theorem setWord_mem (s : State) (a v : Word) : (s.setWord a v).mem = s.mem.set a.toNat v := rfl
@[simp] theorem setWord_run (s : State) (a v : Word) : (s.setWord a v).run = s.run := rfl
@[simp] theorem setWord_conIn (s : State) (a v : Word) : (s.setWord a v).conIn = s.conIn := rfl
@[simp] theorem setWord_conOut (s : State) (a v : Word) : (s.setWord a v).conOut = s.conOut := rfl
@[simp] theorem setWord_reg (s : State) (a v : Word) (q : Reg) : (s.setWord a v).reg q = s.reg q := rfl

/-! ## emit -/

@[simp] theorem emit_regs (s : State) (e : ConEvent) : (s.emit e).regs = s.regs := rfl
@[simp] theorem emit_pc (s : State) (e : ConEvent) : (s.emit e).pc = s.pc := rfl
@[simp] theorem emit_cc (s : State) (e : ConEvent) : (s.emit e).cc = s.cc := rfl
@[simp] theorem emit_mem (s : State) (e : ConEvent) : (s.emit e).mem = s.mem := rfl
@[simp] theorem emit_run (s : State) (e : ConEvent) : (s.emit e).run = s.run := rfl
@[simp] theorem emit_conIn (s : State) (e : ConEvent) : (s.emit e).conIn = s.conIn := rfl
@[simp] theorem emit_conOut (s : State) (e : ConEvent) : (s.emit e).conOut = s.conOut ++ [e] := rfl
@[simp] theorem emit_reg (s : State) (e : ConEvent) (q : Reg) : (s.emit e).reg q = s.reg q := rfl
@[simp] theorem emit_word (s : State) (e : ConEvent) (q : Word) : (s.emit e).word q = s.word q := rfl

/-! ## setBytes -/

@[simp] theorem setBytes_regs (s : State) (bs : List Byte) : (s.setBytes bs).regs = s.regs := rfl
@[simp] theorem setBytes_pc (s : State) (bs : List Byte) : (s.setBytes bs).pc = s.pc := rfl
@[simp] theorem setBytes_cc (s : State) (bs : List Byte) : (s.setBytes bs).cc = s.cc := rfl
@[simp] theorem setBytes_mem (s : State) (bs : List Byte) : (s.setBytes bs).mem = s.mem := rfl
@[simp] theorem setBytes_run (s : State) (bs : List Byte) : (s.setBytes bs).run = s.run := rfl
@[simp] theorem setBytes_conIn (s : State) (bs : List Byte) : (s.setBytes bs).conIn = ⟨bs, s.conIn.ended⟩ := rfl
@[simp] theorem setBytes_conOut (s : State) (bs : List Byte) : (s.setBytes bs).conOut = s.conOut := rfl
@[simp] theorem setBytes_reg (s : State) (bs : List Byte) (q : Reg) : (s.setBytes bs).reg q = s.reg q := rfl
@[simp] theorem setBytes_word (s : State) (bs : List Byte) (q : Word) : (s.setBytes bs).word q = s.word q := rfl

/-! ## terminate -/

@[simp] theorem terminate_regs (st : ExitStatus) (s : State) : (terminate st s).regs = s.regs := rfl
@[simp] theorem terminate_pc (st : ExitStatus) (s : State) : (terminate st s).pc = s.pc := rfl
@[simp] theorem terminate_cc (st : ExitStatus) (s : State) : (terminate st s).cc = s.cc := rfl
@[simp] theorem terminate_mem (st : ExitStatus) (s : State) : (terminate st s).mem = s.mem := rfl
@[simp] theorem terminate_run (st : ExitStatus) (s : State) : (terminate st s).run = .halted st := rfl
@[simp] theorem terminate_conIn (st : ExitStatus) (s : State) : (terminate st s).conIn = s.conIn := rfl
@[simp] theorem terminate_conOut (st : ExitStatus) (s : State) : (terminate st s).conOut = s.conOut := rfl
@[simp] theorem terminate_reg (st : ExitStatus) (s : State) (q : Reg) : (terminate st s).reg q = s.reg q := rfl
@[simp] theorem terminate_word (st : ExitStatus) (s : State) (q : Word) : (terminate st s).word q = s.word q := rfl

/-! ## What the named updates are made of -/

@[simp] theorem setcc_eq (r : Reg) (s : State) : setcc r s = s.setCc (flagsOf (s.reg r)) := rfl

/-- The write of a result sets the flags from the value written. -/
@[simp] theorem writeResult_eq (dr : Reg) (v : Word) (s : State) :
    writeResult dr v s = (s.setReg dr v).setCc (flagsOf v) := by
  simp [writeResult]

@[simp] theorem incPc_eq (s : State) : incPc s = s.setPc (s.pc + 1) := rfl
@[simp] theorem linkR7_eq (s : State) : linkR7 s = s.setReg .r7 s.pc := rfl
@[simp] theorem enterTrap_eq (s : State) : enterTrap s = s.setReg .r7 s.pc := rfl
@[simp] theorem memWrite_eq (a v : Word) (s : State) : memWrite a v s = s.setWord a v := rfl
@[simp] theorem conOutByte_eq (b : Byte) (s : State) : conOutByte b s = s.emit (.char b) := rfl
@[simp] theorem conFlush_eq (s : State) : conFlush s = s.emit .flush := rfl
@[simp] theorem notice_eq (k : NoticeKind) (s : State) : notice k s = s.emit (.notice k) := rfl

/-! ## Flags -/

/-- The computed flags are the ones R25 words. -/
theorem flagsOf_describes (v : Word) : FlagsDescribe (flagsOf v) v where
  zro h := if_pos h
  neg h := by
    have h0 : v ≠ 0x0000 := by rintro rfl; exact absurd h (by decide)
    exact (if_neg h0).trans (if_pos h)
  pos h h' := (if_neg h).trans (if_neg (by simp only [h', Bool.false_eq_true, not_false_eq_true]))

/-- Flags computed from a value are never the reset pattern 0. -/
theorem flagsOf_legal (v : Word) : ccLegal (flagsOf v) := by
  unfold flagsOf ccLegal flZro flNeg flPos
  split <;> [simp; split <;> simp]

/-! ## Frames -/

theorem SameStore.refl (s : State) : SameStore s s := ⟨fun _ => rfl, rfl⟩

theorem SameStore.trans {s t u : State} (h : SameStore s t) (h' : SameStore t u) : SameStore s u :=
  ⟨fun a => (h'.mem a).trans (h.mem a), h'.conIn.trans h.conIn⟩

end Sys2Proof.Machine
end

