-- ==== Sys2Proof/Laws/Memory.lean ====
section
/-! SUPPORT. Read after write, and the canonical form of memory (20_memory.md R43, R44; log 1). -/

namespace Sys2Proof.Machine

theorem Memory.get_erase (m : Memory) (a b : Nat) :
    (m.erase a).get b = if b = a then Config.resetWord else m.get b := by
  induction m with
  | nil => simp [Memory.erase, Memory.get]
  | cons c m ih =>
    obtain ⟨k, v⟩ := c
    by_cases hak : a = k
    · subst hak
      by_cases hb : b = a
      · subst hb; simpa [Memory.erase] using ih
      · simpa [Memory.erase, Memory.get, hb] using ih
    · by_cases hb : b = k
      · subst hb
        simp [Memory.erase, Memory.get, hak, Ne.symm hak]
      · simp [Memory.erase, Memory.get, hak, ih, hb]

theorem Memory.get_insert (m : Memory) (a b : Nat) (v : Word)
    (hm : ∀ c ∈ m, c.1 ≠ a) : (m.insert a v).get b = if b = a then v else m.get b := by
  induction m with
  | nil => simp [Memory.insert, Memory.get]
  | cons c m ih =>
    obtain ⟨k, w⟩ := c
    have hk : k ≠ a := hm (k, w) (by simp)
    have ih := ih (fun c hc => hm c (by simp [hc]))
    unfold Memory.insert
    split
    · simp [Memory.get]
    · by_cases hb : b = k
      · subst hb; simp [Memory.get, hk]
      · simp [Memory.get, hb, ih]

theorem Memory.mem_erase {m : Memory} {a : Nat} {c : MemCell} (h : c ∈ m.erase a) : c ∈ m ∧ c.1 ≠ a := by
  induction m with
  | nil => simp [Memory.erase] at h
  | cons d m ih =>
    obtain ⟨k, v⟩ := d
    unfold Memory.erase at h
    split at h
    · exact ⟨by simp [(ih h).1], (ih h).2⟩
    · rcases List.mem_cons.1 h with rfl | h
      · exact ⟨by simp, fun e => by simp_all⟩
      · exact ⟨by simp [(ih h).1], (ih h).2⟩

/-- Read after write, on every list: the written address reads as the value, every other one as before. -/
theorem Memory.get_set (m : Memory) (a b : Nat) (v : Word) :
    (m.set a v).get b = if b = a then v else m.get b := by
  unfold Memory.set
  split
  · next h => rw [Memory.get_erase, h]
  · rw [Memory.get_insert _ _ _ _ (fun c hc => (Memory.mem_erase hc).2), Memory.get_erase]
    split <;> rfl

/-- Read after write on the machine's memory. -/
@[simp] theorem setWord_word (s : State) (a v b : Word) :
    (s.setWord a v).word b = if b = a then v else s.word b := by
  simp [State.word, State.setWord, Memory.get_set, BitVec.toNat_inj]

/-! ## The canonical form -/

theorem Memory.wfFrom_cons {lo k : Nat} {v : Word} {m : Memory} :
    Memory.wfFrom lo ((k, v) :: m) = true ↔
      lo ≤ k ∧ k < Config.memWords ∧ v ≠ Config.resetWord ∧ Memory.wfFrom (k + 1) m = true := by
  simp [Memory.wfFrom, and_assoc]

theorem Memory.wfFrom_mono {lo hi : Nat} {m : Memory} (h : lo ≤ hi) (hm : Memory.wfFrom hi m = true) :
    Memory.wfFrom lo m = true := by
  cases m with
  | nil => rfl
  | cons c m =>
    obtain ⟨k, v⟩ := c
    rw [Memory.wfFrom_cons] at *
    exact ⟨h.trans hm.1, hm.2⟩

theorem Memory.wfFrom_erase {lo a : Nat} {m : Memory} (hm : Memory.wfFrom lo m = true) :
    Memory.wfFrom lo (m.erase a) = true := by
  induction m generalizing lo with
  | nil => rfl
  | cons c m ih =>
    obtain ⟨k, v⟩ := c
    rw [Memory.wfFrom_cons] at hm
    unfold Memory.erase
    split
    · exact Memory.wfFrom_mono (by omega) (ih hm.2.2.2)
    · exact Memory.wfFrom_cons.2 ⟨hm.1, hm.2.1, hm.2.2.1, ih hm.2.2.2⟩

theorem Memory.wfFrom_insert {lo a : Nat} {v : Word} {m : Memory} (hm : Memory.wfFrom lo m = true)
    (hne : ∀ c ∈ m, c.1 ≠ a) (hlo : lo ≤ a) (ha : a < Config.memWords) (hv : v ≠ Config.resetWord) :
    Memory.wfFrom lo (m.insert a v) = true := by
  induction m generalizing lo with
  | nil => exact Memory.wfFrom_cons.2 ⟨hlo, ha, hv, rfl⟩
  | cons c m ih =>
    obtain ⟨k, w⟩ := c
    rw [Memory.wfFrom_cons] at hm
    have hk : k ≠ a := hne (k, w) (by simp)
    unfold Memory.insert
    split
    · exact Memory.wfFrom_cons.2 ⟨hlo, ha, hv, Memory.wfFrom_cons.2 ⟨by omega, hm.2⟩⟩
    · refine Memory.wfFrom_cons.2 ⟨hm.1, hm.2.1, hm.2.2.1, ih hm.2.2.2 (fun c hc => hne c (by simp [hc])) (by omega)⟩

/-- A write keeps the canonical form. -/
theorem Memory.wf_set {m : Memory} {a : Nat} {v : Word} (hm : m.wf = true) (ha : a < Config.memWords) :
    (m.set a v).wf = true := by
  unfold Memory.set
  split
  · exact Memory.wfFrom_erase hm
  · next hv =>
    exact Memory.wfFrom_insert (Memory.wfFrom_erase hm) (fun c hc => (Memory.mem_erase hc).2) (by omega) ha hv

/-- Every memory operation of the machine is `setWord`, and it keeps the canonical form. -/
theorem setWord_wf {s : State} (a v : Word) (h : s.mem.wf = true) : (s.setWord a v).mem.wf = true :=
  Memory.wf_set h a.isLt

theorem reset_mem_wf : State.reset.mem.wf = true := rfl

/-- In canonical form, an address below the bound reads as the reset word. -/
theorem Memory.get_below {lo a : Nat} {m : Memory} (hm : Memory.wfFrom lo m = true) (h : a < lo) :
    m.get a = Config.resetWord := by
  induction m generalizing lo with
  | nil => rfl
  | cons c m ih =>
    obtain ⟨k, v⟩ := c
    rw [Memory.wfFrom_cons] at hm
    rw [Memory.get, if_neg (by omega)]
    exact ih hm.2.2.2 (by omega)

end Sys2Proof.Machine
end

