-- ==== Sys2Proof/Laws/Ops.lean ====
section
/-! SUPPORT. One lemma per shared operation that says once everything it can do. -/

namespace Sys2Proof.Machine

/-! ## Sequencing -/

section
variable {α β : Type} (f : α → Host.Outcome β Fault Refusal)

@[simp] theorem thenDo_next (a : α) : thenDo (.next a) f = f a := rfl
@[simp] theorem thenDo_fault (r : Fault) : thenDo (.fault r) f = .fault r := rfl
@[simp] theorem thenDo_refused (r : Refusal) : thenDo (.refused r) f = .refused r := rfl

theorem thenDo_eq_next {o : Host.Outcome α Fault Refusal} {b : β} :
    thenDo o f = .next b ↔ ∃ a, o = .next a ∧ f a = .next b := by
  cases o <;> simp

end

/-! ## The input port -/

/-- Everything `askPort` can do. -/
theorem askPort_cases (s : State) :
    (∃ b bs, s.conIn.bytes = b :: bs ∧ askPort s = .next (.byte b, s.setBytes bs)) ∨
    (s.conIn.bytes = [] ∧ s.conIn.ended = true ∧ askPort s = .next (.none, s)) ∨
    (s.conIn.bytes = [] ∧ s.conIn.ended = false ∧ askPort s = .fault (.inputPending s)) := by
  cases h : s.conIn.bytes with
  | cons b bs => exact .inl ⟨b, bs, rfl, by simp [askPort, h]⟩
  | nil => cases h' : s.conIn.ended <;> simp [askPort, h, h']

/-! ## Frames of the console and memory operations -/

/-- What an operation that reads memory or prints leaves alone: every register, pc, cc, run, every word but the two
keyboard words, the canonical form; the trace only grows and the input is only consumed. -/
structure IOFrame (s t : State) : Prop where
  regs : t.regs = s.regs
  pc : t.pc = s.pc
  cc : t.cc = s.cc
  run : t.run = s.run
  word : ∀ a, a ≠ kbsr → a ≠ kbdr → t.word a = s.word a
  wf : s.mem.wf = true → t.mem.wf = true
  out : ∃ es, t.conOut = s.conOut ++ es
  used : ∃ bs, s.conIn.bytes = bs ++ t.conIn.bytes
  ended : t.conIn.ended = s.conIn.ended

theorem IOFrame.refl (s : State) : IOFrame s s :=
  ⟨rfl, rfl, rfl, rfl, fun _ _ _ => rfl, id, ⟨[], by simp⟩, ⟨[], by simp⟩, rfl⟩

theorem IOFrame.trans {s t u : State} (h : IOFrame s t) (h' : IOFrame t u) : IOFrame s u := by
  obtain ⟨es, he⟩ := h.out
  obtain ⟨es', he'⟩ := h'.out
  obtain ⟨bs, hb⟩ := h.used
  obtain ⟨bs', hb'⟩ := h'.used
  exact ⟨h'.regs.trans h.regs, h'.pc.trans h.pc, h'.cc.trans h.cc, h'.run.trans h.run,
    fun a h1 h2 => (h'.word a h1 h2).trans (h.word a h1 h2), fun w => h'.wf (h.wf w),
    ⟨es ++ es', by rw [he', he, List.append_assoc]⟩, ⟨bs ++ bs', by rw [hb, hb', List.append_assoc]⟩,
    h'.ended.trans h.ended⟩

theorem emit_frame (s : State) (e : ConEvent) : IOFrame s (s.emit e) :=
  ⟨rfl, rfl, rfl, rfl, fun _ _ _ => rfl, id, ⟨[e], rfl⟩, ⟨[], by simp⟩, rfl⟩

theorem setBytes_frame {s : State} {b : Byte} {bs : List Byte} (h : s.conIn.bytes = b :: bs) :
    IOFrame s (s.setBytes bs) :=
  ⟨rfl, rfl, rfl, rfl, fun _ _ _ => rfl, id, ⟨[], by simp⟩, ⟨[b], by simp [h]⟩, rfl⟩

theorem setWord_kbd_frame (s : State) {a : Word} (v : Word) (h : a = kbsr ∨ a = kbdr) : IOFrame s (s.setWord a v) :=
  ⟨rfl, rfl, rfl, rfl, fun b h1 h2 => by rw [setWord_word, if_neg (by rintro rfl; rcases h with h | h <;> contradiction)],
    setWord_wf a v, ⟨[], by simp⟩, ⟨[], by simp⟩, rfl⟩

theorem pollWrites_frame (r : ConAnswer) (s : State) : IOFrame s (pollWrites r s) := by
  unfold pollWrites
  split
  · split
    · exact setWord_kbd_frame s _ (.inl rfl)
    · exact (setWord_kbd_frame s _ (.inr rfl)).trans (setWord_kbd_frame _ _ (.inl rfl))
  · exact setWord_kbd_frame s _ (.inl rfl)

theorem pollWrites_conOut (r : ConAnswer) (s : State) : (pollWrites r s).conOut = s.conOut := by
  unfold pollWrites; split <;> [split <;> simp; simp]

theorem pollWrites_conIn (r : ConAnswer) (s : State) : (pollWrites r s).conIn = s.conIn := by
  unfold pollWrites; split <;> [split <;> simp; simp]

/-! ## The read path (20_memory.md R43) -/

theorem memRead_plain {a : Word} (s : State) (h : a ≠ kbsr) : memRead a s = .next (s.word a, s) := if_neg h

/-- A poll that brings a key. -/
theorem memRead_key {s : State} {b : Byte} {bs : List Byte} (h : s.conIn.bytes = b :: bs) (hb : b ≠ 0x00) :
    memRead kbsr s = .next (0x8000, ((s.setBytes bs).setWord kbdr (zext8 b)).setWord kbsr 0x8000) := by
  have hb' : ¬ b = 0#8 := hb
  simp [memRead, askPort, h, pollWrites, hb', kbsrReady]

/-- A poll that brings the byte 0x00. -/
theorem memRead_nul {s : State} {bs : List Byte} (h : s.conIn.bytes = 0x00 :: bs) :
    memRead kbsr s = .next (0x0000, (s.setBytes bs).setWord kbsr 0x0000) := by
  simp [memRead, askPort, h, pollWrites]

/-- A poll at end of input. -/
theorem memRead_end {s : State} (h : s.conIn.bytes = []) (he : s.conIn.ended = true) :
    memRead kbsr s = .next (0x0000, s.setWord kbsr 0x0000) := by
  simp [memRead, askPort, h, he, pollWrites]

/-- A poll that the port has not answered. -/
theorem memRead_pending {s : State} (h : s.conIn.bytes = []) (he : s.conIn.ended = false) :
    memRead kbsr s = .fault (.inputPending s) := by
  simp [memRead, askPort, h, he]

/-- Everything `memRead` can do: complete, or wait for the port. -/
theorem memRead_cases (a : Word) (s : State) :
    (∃ v t, memRead a s = .next (v, t)) ∨
    (a = kbsr ∧ s.conIn.bytes = [] ∧ s.conIn.ended = false ∧ memRead a s = .fault (.inputPending s)) := by
  by_cases ha : a = kbsr
  · subst ha
    rcases askPort_cases s with ⟨b, bs, h, _⟩ | ⟨h, he, _⟩ | ⟨h, he, _⟩
    · by_cases hb : b = 0x00
      · subst hb; exact .inl ⟨_, _, memRead_nul h⟩
      · exact .inl ⟨_, _, memRead_key h hb⟩
    · exact .inl ⟨_, _, memRead_end h he⟩
    · exact .inr ⟨rfl, h, he, memRead_pending h he⟩
  · exact .inl ⟨_, _, memRead_plain s ha⟩

/-- What a completed read leaves alone; it prints nothing. -/
theorem memRead_frame {a v : Word} {s t : State} (h : memRead a s = .next (v, t)) :
    IOFrame s t ∧ t.conOut = s.conOut := by
  unfold memRead at h
  split at h
  · obtain ⟨p, hp, hq⟩ := (thenDo_eq_next _).1 h
    simp only [Host.Outcome.next.injEq, Prod.mk.injEq] at hq
    obtain ⟨-, rfl⟩ := hq
    rcases askPort_cases s with ⟨b, bs, hs, ha⟩ | ⟨_, _, ha⟩ | ⟨_, _, ha⟩ <;> rw [ha] at hp <;> cases hp
    · exact ⟨(setBytes_frame hs).trans (pollWrites_frame ..), pollWrites_conOut ..⟩
    · exact ⟨pollWrites_frame .., pollWrites_conOut ..⟩
  · cases h
    exact ⟨.refl s, rfl⟩

/-! ## Loads and the input services -/

/-- A load that completes read its word through `memRead` and wrote it as a result. -/
theorem loadInto_eq_next {dr : Reg} {a : Word} {s t : State} :
    loadInto dr a s = .next t ↔ ∃ v m, memRead a s = .next (v, m) ∧ t = writeResult dr v m := by
  unfold loadInto
  rw [thenDo_eq_next]
  constructor
  · rintro ⟨⟨v, m⟩, h, h'⟩; cases h'; exact ⟨v, m, h, rfl⟩
  · rintro ⟨v, m, h, rfl⟩; exact ⟨(v, m), h, rfl⟩

/-- Everything `receiveInput` can do. -/
theorem receiveInput_cases (echo : Bool) (s : State) :
    (∃ b bs, s.conIn.bytes = b :: bs ∧ receiveInput echo s = .next (writeResult .r0 (zext8 b)
      (if echo then (s.setBytes bs).emit (.char b) else s.setBytes bs))) ∨
    (s.conIn.bytes = [] ∧ s.conIn.ended = true ∧ receiveInput echo s = .fault (.endOfInput s)) ∨
    (s.conIn.bytes = [] ∧ s.conIn.ended = false ∧ receiveInput echo s = .fault (.inputPending s)) := by
  rcases askPort_cases s with ⟨b, bs, h, ha⟩ | ⟨h, he, ha⟩ | ⟨h, he, ha⟩
  · exact .inl ⟨b, bs, h, by rw [receiveInput, ha]; rfl⟩
  · exact .inr (.inl ⟨h, he, by rw [receiveInput, ha]; rfl⟩)
  · exact .inr (.inr ⟨h, he, by rw [receiveInput, ha]; rfl⟩)

/-! ## String output -/

theorem conOutBytes_eq (bs : List Byte) (s : State) :
    conOutBytes bs s = { s with conOut := s.conOut ++ bs.map .char } := by
  induction bs generalizing s with
  | nil => simp [conOutBytes]
  | cons b bs ih => simp [conOutBytes, ih, State.emit]

theorem conOutBytes_frame (bs : List Byte) (s : State) : IOFrame s (conOutBytes bs s) := by
  rw [conOutBytes_eq]
  exact ⟨rfl, rfl, rfl, rfl, fun _ _ _ => rfl, id, ⟨_, rfl⟩, ⟨[], by simp⟩, rfl⟩

theorem conOutBytes_conIn (bs : List Byte) (s : State) : (conOutBytes bs s).conIn = s.conIn := by
  rw [conOutBytes_eq]

/-- What a completed string leaves alone. -/
theorem printString_frame {chars : Word → List Byte} {n : Nat} {a : Word} {s t : State}
    (h : printString chars n a s = .next t) : IOFrame s t := by
  induction n generalizing a s with
  | zero => cases h
  | succ n ih =>
    obtain ⟨⟨c, m⟩, hr, h⟩ := (thenDo_eq_next _).1 h
    have hm := (memRead_frame hr).1
    simp only at h
    split at h
    · cases h; exact hm
    · exact hm.trans ((conOutBytes_frame ..).trans (ih h))

/-- How many words a string from `a` can have at most before a poll ends it: the words up to 0xFE00, and 65,536 for each
input byte. -/
def stringReach (a : Word) (s : State) : Nat := (kbsr - a).toNat + Config.memWords * s.conIn.bytes.length

theorem stringReach_lt_fuel (a : Word) (s : State) : stringReach a s < stringFuel s := by
  have := (kbsr - a).isLt
  simp only [stringReach, stringFuel, Config.memWords]
  omega

theorem stringReach_plain {a : Word} {s : State} (h : a ≠ kbsr) :
    stringReach (a + 1) s + 1 = stringReach a s := by
  have h' : a.toNat ≠ 0xFE00 := fun e => h (BitVec.eq_of_toNat_eq e)
  have ha := a.isLt
  have hk : kbsr.toNat = 0xFE00 := rfl
  have h1 : (1 : Word).toNat = 1 := rfl
  simp only [stringReach, BitVec.toNat_sub, BitVec.toNat_add, Config.memWords, hk, h1]
  omega

/-- Everything the string loop can do with enough fuel: complete, or wait for the port (20_memory.md R46; log 15). -/
theorem printString_cases {chars : Word → List Byte} {n : Nat} {a : Word} {s : State} (hn : stringReach a s < n) :
    (∃ t, printString chars n a s = .next t) ∨
    (s.conIn.ended = false ∧ ∃ u, printString chars n a s = .fault (.inputPending u)) := by
  induction n generalizing a s with
  | zero => omega
  | succ n ih =>
    by_cases ha : a = kbsr
    · subst ha
      rcases askPort_cases s with ⟨b, bs, h, _⟩ | ⟨h, he, _⟩ | ⟨h, he, _⟩
      · by_cases hb : b = 0x00
        · subst hb; simp [printString, memRead_nul h]
        · have hn' : stringReach (kbsr + 1) (conOutBytes (chars 0x8000)
              (((s.setBytes bs).setWord kbdr (zext8 b)).setWord kbsr 0x8000)) < n := by
            simp only [stringReach, conOutBytes_conIn, setWord_conIn, setBytes_conIn, h, List.length_cons,
              Config.memWords] at hn ⊢
            have : (kbsr - (kbsr + 1)).toNat = 65535 := by decide
            omega
          simpa [printString, memRead_key h hb, conOutBytes_conIn] using ih hn'
      · simp [printString, memRead_end h he]
      · exact .inr ⟨he, s, by simp [printString, memRead_pending h he]⟩
    · simp only [printString, memRead_plain s ha, thenDo_next]
      split
      · exact .inl ⟨_, rfl⟩
      · have hr := stringReach_plain (s := s) ha
        have := ih (a := a + 1) (s := conOutBytes (chars (s.word a)) s)
          (by simp only [stringReach, conOutBytes_conIn] at *; omega)
        simpa [conOutBytes_conIn] using this

end Sys2Proof.Machine
end

