-- ==== Sys2Proof/Laws/Fields.lean ====
section
/-! SUPPORT. Register numbers, and every field read back from every format that holds it (30_encoding.md R61 to R69). -/

namespace Sys2Proof

@[simp] theorem Reg.ofBits_bits (r : Reg) : Reg.ofBits r.bits = r := by cases r <;> rfl

@[simp] theorem Reg.bits_ofBits (b : BitVec 3) : (Reg.ofBits b).bits = b := by
  revert b; decide

/-! ## Format OPR -/

@[simp] theorem fieldOp_formatOPR (op : BitVec 4) (dr sr1 : BitVec 3) (x : BitVec 2) (sr2 : BitVec 3) :
    fieldOp (formatOPR op dr sr1 x sr2) = op := by
  unfold fieldOp formatOPR
  repeat rw [BitVec.extractLsb'_append_eq_of_le (by decide)]
  rw [BitVec.extractLsb'_eq_self]

@[simp] theorem fieldHi_formatOPR (op : BitVec 4) (dr sr1 : BitVec 3) (x : BitVec 2) (sr2 : BitVec 3) :
    fieldHi (formatOPR op dr sr1 x sr2) = Reg.ofBits dr := by
  unfold fieldHi formatOPR
  repeat rw [BitVec.extractLsb'_append_eq_of_le (by decide)]
  rw [BitVec.extractLsb'_append_eq_of_add_le (by decide)]
  rw [BitVec.extractLsb'_eq_self]

@[simp] theorem fieldMid_formatOPR (op : BitVec 4) (dr sr1 : BitVec 3) (x : BitVec 2) (sr2 : BitVec 3) :
    fieldMid (formatOPR op dr sr1 x sr2) = Reg.ofBits sr1 := by
  unfold fieldMid formatOPR
  repeat rw [BitVec.extractLsb'_append_eq_of_le (by decide)]
  rw [BitVec.extractLsb'_append_eq_of_add_le (by decide)]
  rw [BitVec.extractLsb'_eq_self]

@[simp] theorem fieldLo_formatOPR (op : BitVec 4) (dr sr1 : BitVec 3) (x : BitVec 2) (sr2 : BitVec 3) :
    fieldLo (formatOPR op dr sr1 x sr2) = Reg.ofBits sr2 := by
  unfold fieldLo formatOPR
  rw [BitVec.extractLsb'_append_eq_of_add_le (by decide)]
  rw [BitVec.extractLsb'_eq_self]

@[simp] theorem fieldImmFlag_formatOPR (op : BitVec 4) (dr sr1 : BitVec 3) (x : BitVec 2) (sr2 : BitVec 3) :
    fieldImmFlag (formatOPR op dr sr1 x sr2) = false := by
  unfold fieldImmFlag formatOPR
  repeat rw [BitVec.getLsbD_append]
  rfl

/-! ## Format OPI -/

@[simp] theorem fieldOp_formatOPI (op : BitVec 4) (dr sr1 : BitVec 3) (imm5 : BitVec 5) :
    fieldOp (formatOPI op dr sr1 imm5) = op := by
  unfold fieldOp formatOPI
  repeat rw [BitVec.extractLsb'_append_eq_of_le (by decide)]
  rw [BitVec.extractLsb'_eq_self]

@[simp] theorem fieldHi_formatOPI (op : BitVec 4) (dr sr1 : BitVec 3) (imm5 : BitVec 5) :
    fieldHi (formatOPI op dr sr1 imm5) = Reg.ofBits dr := by
  unfold fieldHi formatOPI
  repeat rw [BitVec.extractLsb'_append_eq_of_le (by decide)]
  rw [BitVec.extractLsb'_append_eq_of_add_le (by decide)]
  rw [BitVec.extractLsb'_eq_self]

@[simp] theorem fieldMid_formatOPI (op : BitVec 4) (dr sr1 : BitVec 3) (imm5 : BitVec 5) :
    fieldMid (formatOPI op dr sr1 imm5) = Reg.ofBits sr1 := by
  unfold fieldMid formatOPI
  repeat rw [BitVec.extractLsb'_append_eq_of_le (by decide)]
  rw [BitVec.extractLsb'_append_eq_of_add_le (by decide)]
  rw [BitVec.extractLsb'_eq_self]

@[simp] theorem fieldImm5_formatOPI (op : BitVec 4) (dr sr1 : BitVec 3) (imm5 : BitVec 5) :
    fieldImm5 (formatOPI op dr sr1 imm5) = imm5 := by
  unfold fieldImm5 formatOPI
  rw [BitVec.extractLsb'_append_eq_of_add_le (by decide)]
  rw [BitVec.extractLsb'_eq_self]

@[simp] theorem fieldImmFlag_formatOPI (op : BitVec 4) (dr sr1 : BitVec 3) (imm5 : BitVec 5) :
    fieldImmFlag (formatOPI op dr sr1 imm5) = true := by
  unfold fieldImmFlag formatOPI
  repeat rw [BitVec.getLsbD_append]
  rfl

/-! ## Format NOT -/

@[simp] theorem fieldOp_formatNOT (op : BitVec 4) (dr sr : BitVec 3) (x : BitVec 6) :
    fieldOp (formatNOT op dr sr x) = op := by
  unfold fieldOp formatNOT
  repeat rw [BitVec.extractLsb'_append_eq_of_le (by decide)]
  rw [BitVec.extractLsb'_eq_self]

@[simp] theorem fieldHi_formatNOT (op : BitVec 4) (dr sr : BitVec 3) (x : BitVec 6) :
    fieldHi (formatNOT op dr sr x) = Reg.ofBits dr := by
  unfold fieldHi formatNOT
  repeat rw [BitVec.extractLsb'_append_eq_of_le (by decide)]
  rw [BitVec.extractLsb'_append_eq_of_add_le (by decide)]
  rw [BitVec.extractLsb'_eq_self]

@[simp] theorem fieldMid_formatNOT (op : BitVec 4) (dr sr : BitVec 3) (x : BitVec 6) :
    fieldMid (formatNOT op dr sr x) = Reg.ofBits sr := by
  unfold fieldMid formatNOT
  repeat rw [BitVec.extractLsb'_append_eq_of_le (by decide)]
  rw [BitVec.extractLsb'_append_eq_of_add_le (by decide)]
  rw [BitVec.extractLsb'_eq_self]

/-! ## Format PC9 -/

@[simp] theorem fieldOp_formatPC9 (op : BitVec 4) (r : BitVec 3) (off9 : BitVec 9) :
    fieldOp (formatPC9 op r off9) = op := by
  unfold fieldOp formatPC9
  repeat rw [BitVec.extractLsb'_append_eq_of_le (by decide)]
  rw [BitVec.extractLsb'_eq_self]

@[simp] theorem fieldHi_formatPC9 (op : BitVec 4) (r : BitVec 3) (off9 : BitVec 9) :
    fieldHi (formatPC9 op r off9) = Reg.ofBits r := by
  unfold fieldHi formatPC9
  repeat rw [BitVec.extractLsb'_append_eq_of_le (by decide)]
  rw [BitVec.extractLsb'_append_eq_of_add_le (by decide)]
  rw [BitVec.extractLsb'_eq_self]

@[simp] theorem fieldOff9_formatPC9 (op : BitVec 4) (r : BitVec 3) (off9 : BitVec 9) :
    fieldOff9 (formatPC9 op r off9) = off9 := by
  unfold fieldOff9 formatPC9
  rw [BitVec.extractLsb'_append_eq_of_add_le (by decide)]
  rw [BitVec.extractLsb'_eq_self]

/-! ## Format BR -/

@[simp] theorem fieldOp_formatBR (op : BitVec 4) (n z p : Bool) (off9 : BitVec 9) :
    fieldOp (formatBR op n z p off9) = op := by
  unfold fieldOp formatBR
  repeat rw [BitVec.extractLsb'_append_eq_of_le (by decide)]
  rw [BitVec.extractLsb'_eq_self]

@[simp] theorem fieldBit11_formatBR (op : BitVec 4) (n z p : Bool) (off9 : BitVec 9) :
    fieldBit11 (formatBR op n z p off9) = n := by
  unfold fieldBit11 formatBR
  repeat rw [BitVec.getLsbD_append]
  simp

@[simp] theorem fieldBit10_formatBR (op : BitVec 4) (n z p : Bool) (off9 : BitVec 9) :
    fieldBit10 (formatBR op n z p off9) = z := by
  unfold fieldBit10 formatBR
  repeat rw [BitVec.getLsbD_append]
  simp

@[simp] theorem fieldBit9_formatBR (op : BitVec 4) (n z p : Bool) (off9 : BitVec 9) :
    fieldBit9 (formatBR op n z p off9) = p := by
  unfold fieldBit9 formatBR
  repeat rw [BitVec.getLsbD_append]
  simp

@[simp] theorem fieldOff9_formatBR (op : BitVec 4) (n z p : Bool) (off9 : BitVec 9) :
    fieldOff9 (formatBR op n z p off9) = off9 := by
  unfold fieldOff9 formatBR
  rw [BitVec.extractLsb'_append_eq_of_add_le (by decide)]
  rw [BitVec.extractLsb'_eq_self]

/-! ## Format BASE6 -/

@[simp] theorem fieldOp_formatBASE6 (op : BitVec 4) (r base : BitVec 3) (off6 : BitVec 6) :
    fieldOp (formatBASE6 op r base off6) = op := by
  unfold fieldOp formatBASE6
  repeat rw [BitVec.extractLsb'_append_eq_of_le (by decide)]
  rw [BitVec.extractLsb'_eq_self]

@[simp] theorem fieldHi_formatBASE6 (op : BitVec 4) (r base : BitVec 3) (off6 : BitVec 6) :
    fieldHi (formatBASE6 op r base off6) = Reg.ofBits r := by
  unfold fieldHi formatBASE6
  repeat rw [BitVec.extractLsb'_append_eq_of_le (by decide)]
  rw [BitVec.extractLsb'_append_eq_of_add_le (by decide)]
  rw [BitVec.extractLsb'_eq_self]

@[simp] theorem fieldMid_formatBASE6 (op : BitVec 4) (r base : BitVec 3) (off6 : BitVec 6) :
    fieldMid (formatBASE6 op r base off6) = Reg.ofBits base := by
  unfold fieldMid formatBASE6
  repeat rw [BitVec.extractLsb'_append_eq_of_le (by decide)]
  rw [BitVec.extractLsb'_append_eq_of_add_le (by decide)]
  rw [BitVec.extractLsb'_eq_self]

@[simp] theorem fieldOff6_formatBASE6 (op : BitVec 4) (r base : BitVec 3) (off6 : BitVec 6) :
    fieldOff6 (formatBASE6 op r base off6) = off6 := by
  unfold fieldOff6 formatBASE6
  rw [BitVec.extractLsb'_append_eq_of_add_le (by decide)]
  rw [BitVec.extractLsb'_eq_self]

/-! ## Format JMP -/

@[simp] theorem fieldOp_formatJMP (op : BitVec 4) (x base : BitVec 3) (y : BitVec 6) :
    fieldOp (formatJMP op x base y) = op := by
  unfold fieldOp formatJMP
  repeat rw [BitVec.extractLsb'_append_eq_of_le (by decide)]
  rw [BitVec.extractLsb'_eq_self]

@[simp] theorem fieldMid_formatJMP (op : BitVec 4) (x base : BitVec 3) (y : BitVec 6) :
    fieldMid (formatJMP op x base y) = Reg.ofBits base := by
  unfold fieldMid formatJMP
  repeat rw [BitVec.extractLsb'_append_eq_of_le (by decide)]
  rw [BitVec.extractLsb'_append_eq_of_add_le (by decide)]
  rw [BitVec.extractLsb'_eq_self]

/-! ## Format JSR -/

@[simp] theorem fieldOp_formatJSR (op : BitVec 4) (off11 : BitVec 11) :
    fieldOp (formatJSR op off11) = op := by
  unfold fieldOp formatJSR
  repeat rw [BitVec.extractLsb'_append_eq_of_le (by decide)]
  rw [BitVec.extractLsb'_eq_self]

@[simp] theorem fieldBit11_formatJSR (op : BitVec 4) (off11 : BitVec 11) :
    fieldBit11 (formatJSR op off11) = true := by
  unfold fieldBit11 formatJSR
  repeat rw [BitVec.getLsbD_append]
  rfl

@[simp] theorem fieldOff11_formatJSR (op : BitVec 4) (off11 : BitVec 11) :
    fieldOff11 (formatJSR op off11) = off11 := by
  unfold fieldOff11 formatJSR
  rw [BitVec.extractLsb'_append_eq_of_add_le (by decide)]
  rw [BitVec.extractLsb'_eq_self]

/-! ## Format JSRR -/

@[simp] theorem fieldOp_formatJSRR (op : BitVec 4) (x : BitVec 2) (base : BitVec 3) (y : BitVec 6) :
    fieldOp (formatJSRR op x base y) = op := by
  unfold fieldOp formatJSRR
  repeat rw [BitVec.extractLsb'_append_eq_of_le (by decide)]
  rw [BitVec.extractLsb'_eq_self]

@[simp] theorem fieldBit11_formatJSRR (op : BitVec 4) (x : BitVec 2) (base : BitVec 3) (y : BitVec 6) :
    fieldBit11 (formatJSRR op x base y) = false := by
  unfold fieldBit11 formatJSRR
  repeat rw [BitVec.getLsbD_append]
  rfl

@[simp] theorem fieldMid_formatJSRR (op : BitVec 4) (x : BitVec 2) (base : BitVec 3) (y : BitVec 6) :
    fieldMid (formatJSRR op x base y) = Reg.ofBits base := by
  unfold fieldMid formatJSRR
  repeat rw [BitVec.extractLsb'_append_eq_of_le (by decide)]
  rw [BitVec.extractLsb'_append_eq_of_add_le (by decide)]
  rw [BitVec.extractLsb'_eq_self]

/-! ## Format TRAP -/

@[simp] theorem fieldOp_formatTRAP (op x : BitVec 4) (vect8 : BitVec 8) :
    fieldOp (formatTRAP op x vect8) = op := by
  unfold fieldOp formatTRAP
  repeat rw [BitVec.extractLsb'_append_eq_of_le (by decide)]
  rw [BitVec.extractLsb'_eq_self]

@[simp] theorem fieldVect8_formatTRAP (op x : BitVec 4) (vect8 : BitVec 8) :
    fieldVect8 (formatTRAP op x vect8) = vect8 := by
  unfold fieldVect8 formatTRAP
  rw [BitVec.extractLsb'_append_eq_of_add_le (by decide)]
  rw [BitVec.extractLsb'_eq_self]

/-! ## Format NONE -/

@[simp] theorem fieldOp_formatNONE (op : BitVec 4) (x : BitVec 12) :
    fieldOp (formatNONE op x) = op := by
  unfold fieldOp formatNONE
  repeat rw [BitVec.extractLsb'_append_eq_of_le (by decide)]
  rw [BitVec.extractLsb'_eq_self]

end Sys2Proof
end

