-- ==== Sys2Proof/Laws/PerInstr.lean ====
section
/-! SUPPORT. Facts about every instruction, one lemma per constructor (LAWS.json, "per_instruction"). -/

namespace Sys2Proof.Laws

/-- A masked word equals a value when it does so bit by bit. -/
theorem row_has_of_bits {w m v g : Word} (h : ∀ i : Fin 16, (w.getLsbD i && m.getLsbD i) = v.getLsbD i) :
    Row.has ⟨v, m, g⟩ w = true := by
  rw [Row.has, beq_iff_eq]
  apply BitVec.eq_of_getLsbD_eq
  intro i hi
  rw [BitVec.getLsbD_and]
  exact h ⟨i, hi⟩

/-- The word an instruction encodes to belongs to its row of opcode_table.json (30_encoding.md R77, R78). -/
def EncodesIntoRow.Statement (i : Instr) : Prop := i.row.has (encode i) = true

namespace EncodesIntoRow

theorem br (n : Bool) (z : Bool) (p : Bool) (off9 : BitVec 9) : Statement (.br n z p off9) := by
  refine row_has_of_bits fun i => ?_
  simp only [encode, formatBR]
  repeat rw [BitVec.getLsbD_append]
  fin_cases i <;> simp

theorem add (dr : Reg) (sr1 : Reg) (sr2 : Reg) : Statement (.add dr sr1 sr2) := by
  refine row_has_of_bits fun i => ?_
  simp only [encode, formatOPR]
  repeat rw [BitVec.getLsbD_append]
  fin_cases i <;> simp

theorem addi (dr : Reg) (sr1 : Reg) (imm5 : BitVec 5) : Statement (.addi dr sr1 imm5) := by
  refine row_has_of_bits fun i => ?_
  simp only [encode, formatOPI]
  repeat rw [BitVec.getLsbD_append]
  fin_cases i <;> simp

theorem ld (dr : Reg) (off9 : BitVec 9) : Statement (.ld dr off9) := by
  refine row_has_of_bits fun i => ?_
  simp only [encode, formatPC9]
  repeat rw [BitVec.getLsbD_append]
  fin_cases i <;> simp

theorem st (sr : Reg) (off9 : BitVec 9) : Statement (.st sr off9) := by
  refine row_has_of_bits fun i => ?_
  simp only [encode, formatPC9]
  repeat rw [BitVec.getLsbD_append]
  fin_cases i <;> simp

theorem jsr (off11 : BitVec 11) : Statement (.jsr off11) := by
  refine row_has_of_bits fun i => ?_
  simp only [encode, formatJSR]
  repeat rw [BitVec.getLsbD_append]
  fin_cases i <;> simp

theorem jsrr (base : Reg) : Statement (.jsrr base) := by
  refine row_has_of_bits fun i => ?_
  simp only [encode, formatJSRR]
  repeat rw [BitVec.getLsbD_append]
  fin_cases i <;> simp

theorem and (dr : Reg) (sr1 : Reg) (sr2 : Reg) : Statement (.and dr sr1 sr2) := by
  refine row_has_of_bits fun i => ?_
  simp only [encode, formatOPR]
  repeat rw [BitVec.getLsbD_append]
  fin_cases i <;> simp

theorem andi (dr : Reg) (sr1 : Reg) (imm5 : BitVec 5) : Statement (.andi dr sr1 imm5) := by
  refine row_has_of_bits fun i => ?_
  simp only [encode, formatOPI]
  repeat rw [BitVec.getLsbD_append]
  fin_cases i <;> simp

theorem ldr (dr : Reg) (base : Reg) (off6 : BitVec 6) : Statement (.ldr dr base off6) := by
  refine row_has_of_bits fun i => ?_
  simp only [encode, formatBASE6]
  repeat rw [BitVec.getLsbD_append]
  fin_cases i <;> simp

theorem str (sr : Reg) (base : Reg) (off6 : BitVec 6) : Statement (.str sr base off6) := by
  refine row_has_of_bits fun i => ?_
  simp only [encode, formatBASE6]
  repeat rw [BitVec.getLsbD_append]
  fin_cases i <;> simp

theorem rti : Statement .rti := by
  rfl

theorem not (dr : Reg) (sr : Reg) : Statement (.not dr sr) := by
  refine row_has_of_bits fun i => ?_
  simp only [encode, formatNOT]
  repeat rw [BitVec.getLsbD_append]
  fin_cases i <;> simp

theorem ldi (dr : Reg) (off9 : BitVec 9) : Statement (.ldi dr off9) := by
  refine row_has_of_bits fun i => ?_
  simp only [encode, formatPC9]
  repeat rw [BitVec.getLsbD_append]
  fin_cases i <;> simp

theorem sti (sr : Reg) (off9 : BitVec 9) : Statement (.sti sr off9) := by
  refine row_has_of_bits fun i => ?_
  simp only [encode, formatPC9]
  repeat rw [BitVec.getLsbD_append]
  fin_cases i <;> simp

theorem jmp (base : Reg) : Statement (.jmp base) := by
  refine row_has_of_bits fun i => ?_
  simp only [encode, formatJMP]
  repeat rw [BitVec.getLsbD_append]
  fin_cases i <;> simp

theorem res : Statement .res := by
  rfl

theorem lea (dr : Reg) (off9 : BitVec 9) : Statement (.lea dr off9) := by
  refine row_has_of_bits fun i => ?_
  simp only [encode, formatPC9]
  repeat rw [BitVec.getLsbD_append]
  fin_cases i <;> simp

theorem trap (v : BitVec 8) : Statement (.trap v) := by
  refine row_has_of_bits fun i => ?_
  simp only [encode, formatTRAP]
  repeat rw [BitVec.getLsbD_append]
  fin_cases i <;> simp

theorem getc : Statement .getc := by
  rfl

theorem out : Statement .out := by
  rfl

theorem puts : Statement .puts := by
  rfl

theorem in_ : Statement .in_ := by
  rfl

theorem putsp : Statement .putsp := by
  rfl

theorem halt : Statement .halt := by
  rfl

theorem ret : Statement .ret := by
  rfl

theorem nop (off9 : BitVec 9) : Statement (.nop off9) := by
  refine row_has_of_bits fun i => ?_
  simp only [encode, formatBR]
  repeat rw [BitVec.getLsbD_append]
  fin_cases i <;> simp

end EncodesIntoRow

end Sys2Proof.Laws
end

