-- ==== Sys2Proof/Laws/Step.lean ====
section
/-! SUPPORT. What a completed step is made of (40_execution_cycle.md R85), and what the string services leave alone. -/

namespace Sys2Proof.Machine

/-- A completed step: the machine was running, the fetch read a word through `memRead`, and the decoded instruction
completed from the state the fetch left, pc incremented. -/
theorem step_eq_next {s t : State} (h : step s = .next t) :
    s.run = .running ∧ ∃ w m, memRead s.pc s = .next (w, m) ∧ IOFrame s m ∧ m.conOut = s.conOut ∧
      exec (decode w) (m.setPc (s.pc + 1)) = .next t := by
  unfold step at h
  split at h
  · cases h
  · next hr =>
    refine ⟨hr, ?_⟩
    obtain ⟨⟨w, m'⟩, hf, h⟩ := (thenDo_eq_next _).1 h
    obtain ⟨⟨w', m⟩, hm, hf⟩ := (thenDo_eq_next _).1 hf
    cases hf
    have f := memRead_frame hm
    exact ⟨_, _, hm, f.1, f.2, by rw [← f.1.pc]; exact h⟩

/-- A completed PUTS or PUTSP body is a console and memory-read operation. -/
theorem printFromR0_frame {chars : Word → List Byte} {s t : State} (h : printFromR0 chars s = .next t) :
    IOFrame s t := by
  obtain ⟨u, hu, h⟩ := (thenDo_eq_next _).1 h
  cases h
  exact (printString_frame hu).trans (emit_frame ..)

/-- `memRead` looks only at memory and the input stream. -/
theorem memRead_of_same_store {a v : Word} {s s' t : State} (hm : s'.mem = s.mem) (hi : s'.conIn = s.conIn)
    (h : memRead a s = .next (v, t)) : ∃ t', memRead a s' = .next (v, t') ∧ t'.mem = t.mem ∧ t'.conIn = t.conIn := by
  by_cases ha : a = kbsr
  · subst ha
    rcases askPort_cases s with ⟨b, bs, hb, _⟩ | ⟨hb, he, _⟩ | ⟨hb, he, _⟩
    · by_cases h0 : b = 0x00
      · subst h0
        rw [memRead_nul hb] at h; cases h
        exact ⟨_, memRead_nul (hi ▸ hb), by simp [hm], by simp [hi]⟩
      · rw [memRead_key hb h0] at h; cases h
        exact ⟨_, memRead_key (hi ▸ hb) h0, by simp [hm], by simp [hi]⟩
    · rw [memRead_end hb he] at h; cases h
      exact ⟨_, memRead_end (hi ▸ hb) (hi ▸ he), by simp [hm], by simp [hi]⟩
    · rw [memRead_pending hb he] at h; cases h
  · rw [memRead_plain _ ha] at h; cases h
    exact ⟨_, by rw [memRead_plain _ ha]; simp [State.word, hm], hm, hi⟩

end Sys2Proof.Machine
end

