-- ==== Sys2Proof/Tests/Slice0.lean ====
section
/-! SUPPORT. Tests on fixed values. Expected values are spec/95_test_vectors.md's (each test names its vector) or written
out from the encoding tables of spec/30_encoding.md. Witnesses: one state or input that meets a statement's hypotheses. -/

open Sys2Proof Sys2Proof.Machine

namespace Sys2Proof.Tests

/-! ## Ill-formed terms are refused (the three checks of WellFormed) -/

theorem test_wf_refuses_br_without_a_tested_flag : (Instr.br false false false 0x1FF).wf = false := by decide
theorem test_wf_refuses_jmp_r7 : (Instr.jmp .r7).wf = false := by decide
theorem test_wf_refuses_trap_with_first_service_vector : (Instr.trap 0x20).wf = false := by decide
theorem test_wf_refuses_trap_with_last_service_vector : (Instr.trap 0x25).wf = false := by decide
theorem test_wf_accepts_the_neighbours :
    ((Instr.br false true false 0).wf && (Instr.jmp .r6).wf && (Instr.trap 0x1F).wf && (Instr.trap 0x26).wf) = true := by
  decide

/-! ## Decoding: a word of every constructor, bit by bit from its format (R61 to R69); ignored bits set somewhere -/

theorem test_decode_br : decode 0b0000_101_000000010 = .br true false true 2 := by decide
theorem test_decode_add : decode 0b0001_010_011_0_11_100 = .add .r2 .r3 .r4 := by decide
theorem test_decode_addi : decode 0b0001_110_001_1_10000 = .addi .r6 .r1 0b10000 := by decide
theorem test_decode_ld : decode 0b0010_001_100000011 = .ld .r1 0b100000011 := by decide
theorem test_decode_st : decode 0b0011_101_000000001 = .st .r5 1 := by decide
theorem test_decode_jsr : decode 0b0100_1_10000000010 = .jsr 0b10000000010 := by decide
theorem test_decode_jsrr : decode 0b0100_0_11_011_101010 = .jsrr .r3 := by decide
theorem test_decode_and : decode 0b0101_011_001_0_01_010 = .and .r3 .r1 .r2 := by decide
theorem test_decode_andi : decode 0b0101_101_110_1_01111 = .andi .r5 .r6 0b01111 := by decide
theorem test_decode_ldr : decode 0b0110_100_010_111011 = .ldr .r4 .r2 0b111011 := by decide
theorem test_decode_str : decode 0b0111_001_110_000001 = .str .r1 .r6 1 := by decide
theorem test_decode_rti : decode 0b1000_111111111111 = .rti := by decide
theorem test_decode_not : decode 0b1001_001_010_111111 = .not .r1 .r2 := by decide
theorem test_decode_ldi : decode 0b1010_111_000000001 = .ldi .r7 1 := by decide
theorem test_decode_sti : decode 0b1011_011_111111111 = .sti .r3 0b111111111 := by decide
theorem test_decode_jmp : decode 0b1100_111_010_111111 = .jmp .r2 := by decide
theorem test_decode_res : decode 0b1101_101010111100 = .res := by decide
theorem test_decode_lea : decode 0b1110_000_000000010 = .lea .r0 2 := by decide
theorem test_decode_trap : decode 0b1111_0000_10011001 = .trap 0x99 := by decide
theorem test_decode_getc : decode 0b1111_0000_00100000 = .getc := by decide
theorem test_decode_out : decode 0b1111_1000_00100001 = .out := by decide
theorem test_decode_puts : decode 0b1111_0000_00100010 = .puts := by decide
theorem test_decode_in : decode 0b1111_0000_00100011 = .in_ := by decide
theorem test_decode_putsp : decode 0b1111_0000_00100100 = .putsp := by decide
theorem test_decode_halt : decode 0b1111_0001_00100101 = .halt := by decide
theorem test_decode_ret : decode 0b1100_000_111_000000 = .ret := by decide
theorem test_decode_nop : decode 0b0000_000_111111111 = .nop 0b111111111 := by decide

theorem test_decodeTableWord : decodeTableWord 16 0x1025 = some (.addi .r0 .r0 5) ∧ decodeTableWord 32 0x1025 = none := by
  decide

/-! ## Steps -/

/-- A running machine about to fetch at `pc`, with the listed words, registers and input bytes (then end of input). -/
def boot (pc cc : Word) (words : List (Word × Word)) (regs : List (Reg × Word)) (input : List Byte) : State :=
  regs.foldl (fun s r => s.setReg r.1 r.2)
    (words.foldl (fun s c => loaderWrite c.1 c.2 s) { State.reset with pc := pc, cc := cc, conIn := ⟨input, true⟩ })

/-- The outcome is a next state with a property. -/
def gives (o : Host.Outcome State Fault Refusal) (p : State → Bool) : Bool :=
  match o with
  | .next t => p t
  | .fault _ => false
  | .refused _ => false

/-- V-ADD-1. -/
theorem test_add : gives (step (boot 0x3000 0 [(0x3000, 0x14C4)] [(.r3, 0x0007), (.r4, 0xFFFE)] []))
    (fun t => t.reg .r2 == 0x0005 && t.pc == 0x3001 && t.cc == 1) = true := by decide
/-- V-ADD-5. -/
theorem test_add_same_register : gives (step (boot 0x3000 4 [(0x3000, 0x1241)] [(.r1, 0x8000)] []))
    (fun t => t.reg .r1 == 0 && t.cc == 2) = true := by decide
/-- V-ADD-2. -/
theorem test_addi : gives (step (boot 0x3000 0 [(0x3000, 0x1021)] [(.r0, 0x7FFF)] []))
    (fun t => t.reg .r0 == 0x8000 && t.cc == 4) = true := by decide
/-- V-ADD-6. -/
theorem test_addi_negative : gives (step (boot 0x3000 1 [(0x3000, 0x16B0)] [(.r2, 0x0010)] []))
    (fun t => t.reg .r3 == 0 && t.cc == 2) = true := by decide
/-- V-AND-1. -/
theorem test_and : gives (step (boot 0x3000 0 [(0x3000, 0x5642)] [(.r1, 0xF0F0), (.r2, 0x8F0F)] []))
    (fun t => t.reg .r3 == 0x8000 && t.cc == 4) = true := by decide
/-- V-AND-3. -/
theorem test_andi : gives (step (boot 0x3000 0 [(0x3000, 0x5B6F)] [(.r5, 0xABCD)] []))
    (fun t => t.reg .r5 == 0x000D && t.cc == 1) = true := by decide
/-- V-AND-5. -/
theorem test_andi_negative : gives (step (boot 0x3000 0 [(0x3000, 0x5B70)] [(.r5, 0xABCD)] []))
    (fun t => t.reg .r5 == 0xABC0 && t.cc == 4) = true := by decide
/-- V-NOT-1. -/
theorem test_not : gives (step (boot 0x3000 0 [(0x3000, 0x92BF)] [(.r2, 0x00FF)] []))
    (fun t => t.reg .r1 == 0xFF00 && t.cc == 4) = true := by decide
/-- V-NOT-4. -/
theorem test_not_zero_bits : gives (step (boot 0x3000 4 [(0x3000, 0x903F)] [(.r0, 0x8000)] []))
    (fun t => t.reg .r0 == 0x7FFF && t.cc == 1) = true := by decide
/-- V-BR-1. -/
theorem test_br_taken : gives (step (boot 0x3005 1 [(0x3005, 0x03FD)] [] []))
    (fun t => t.pc == 0x3003 && t.cc == 1) = true := by decide
/-- V-BR-3. -/
theorem test_br_at_reset_flags : gives (step (boot 0x3000 0 [(0x3000, 0x0E05)] [] []))
    (fun t => t.pc == 0x3001 && t.cc == 0) = true := by decide
/-- V-BR-6. -/
theorem test_nop : gives (step (boot 0x3000 2 [(0x3000, 0x01FF)] [] []))
    (fun t => t.pc == 0x3001 && t.cc == 2) = true := by decide
/-- V-JMP-3. -/
theorem test_jmp : gives (step (boot 0x3000 0 [(0x3000, 0xCEBF)] [(.r2, 0x4000)] []))
    (fun t => t.pc == 0x4000 && t.reg .r7 == 0) = true := by decide
/-- V-JMP-2. -/
theorem test_ret : gives (step (boot 0x3003 0 [(0x3003, 0xC1C0)] [(.r7, 0x3001)] []))
    (fun t => t.pc == 0x3001 && t.reg .r7 == 0x3001) = true := by decide
/-- V-JSR-2. -/
theorem test_jsr : gives (step (boot 0x3000 2 [(0x3000, 0x4C00)] [] []))
    (fun t => t.reg .r7 == 0x3001 && t.pc == 0x2C01 && t.cc == 2) = true := by decide
/-- V-JSRR-1. -/
theorem test_jsrr : gives (step (boot 0x3010 0 [(0x3010, 0x40C0)] [(.r3, 0x5000)] []))
    (fun t => t.reg .r7 == 0x3011 && t.pc == 0x5000) = true := by decide
/-- V-JSRR-2. -/
theorem test_jsrr_r7 : gives (step (boot 0x3010 0 [(0x3010, 0x41C0)] [(.r7, 0x5000)] []))
    (fun t => t.reg .r7 == 0x3011 && t.pc == 0x3011) = true := by decide
/-- V-LD-4. -/
theorem test_ld : gives (step (boot 0x0004 0 [(0x0004, 0x25F0), (0xFFF5, 0x0001)] [] []))
    (fun t => t.reg .r2 == 1 && t.pc == 0x0005 && t.cc == 1) = true := by decide
/-- V-LD-5. -/
theorem test_ld_polls : gives (step (boot 0xFDFF 0 [(0xFDFF, 0x2000)] [] [0x61]))
    (fun t => t.reg .r0 == 0x8000 && t.cc == 4 && t.word 0xFE00 == 0x8000 && t.word 0xFE02 == 0x0061 && t.conIn.bytes == []) = true := by decide
/-- V-LDI-1. -/
theorem test_ldi : gives (step (boot 0x3000 0 [(0x3000, 0xA201), (0x3002, 0x4000), (0x4000, 0x0042)] [] []))
    (fun t => t.reg .r1 == 0x0042 && t.cc == 1) = true := by decide
/-- V-LDI-4. -/
theorem test_ldi_polls_at_end_of_input : gives (step (boot 0x3000 4 [(0x3000, 0xA001), (0x3002, 0xFE00), (0xFE00, 0x8000), (0xFE02, 0x0061)] [] []))
    (fun t => t.reg .r0 == 0 && t.cc == 2 && t.word 0xFE00 == 0 && t.word 0xFE02 == 0x0061) = true := by decide
/-- V-LDR-2. -/
theorem test_ldr : gives (step (boot 0x3000 0 [(0x3000, 0x649F), (0x401F, 0x8001)] [(.r2, 0x4000)] []))
    (fun t => t.reg .r2 == 0x8001 && t.cc == 4) = true := by decide
/-- V-LDR-3. -/
theorem test_ldr_wraps : gives (step (boot 0x3000 1 [(0x3000, 0x623F)] [] []))
    (fun t => t.reg .r1 == 0 && t.cc == 2) = true := by decide
/-- V-LEA-2. -/
theorem test_lea : gives (step (boot 0xFFFF 0 [(0xFFFF, 0xE7FF)] [] []))
    (fun t => t.reg .r3 == 0xFFFF && t.pc == 0 && t.cc == 4) = true := by decide
/-- V-LEA-5. -/
theorem test_lea_never_polls : gives (step (boot 0xFDFF 0 [(0xFDFF, 0xE000)] [] [0x61]))
    (fun t => t.reg .r0 == 0xFE00 && t.cc == 4 && t.conIn.bytes == [0x61] && t.word 0xFE00 == 0) = true := by decide
/-- V-ST-1. -/
theorem test_st : gives (step (boot 0x3006 2 [(0x3006, 0x3001)] [(.r0, 0x000F)] []))
    (fun t => t.word 0x3008 == 0x000F && t.pc == 0x3007 && t.cc == 2) = true := by decide
/-- V-ST-3. -/
theorem test_st_to_keyboard_status : gives (step (boot 0xFDFF 0 [(0xFDFF, 0x3200)] [(.r1, 0x1234)] [0x61]))
    (fun t => t.word 0xFE00 == 0x1234 && t.pc == 0xFE00 && t.conIn.bytes == [0x61]) = true := by decide
/-- V-STI-1. -/
theorem test_sti : gives (step (boot 0x3000 0 [(0x3000, 0xB601), (0x3002, 0x5000)] [(.r3, 0xCAFE)] []))
    (fun t => t.word 0x5000 == 0xCAFE && t.word 0x3002 == 0x5000 && t.cc == 0) = true := by decide
/-- V-STI-2. -/
theorem test_sti_pointer_to_itself : gives (step (boot 0x3000 0 [(0x3000, 0xB601), (0x3002, 0x3002)] [(.r3, 0xCAFE)] []))
    (fun t => t.word 0x3002 == 0xCAFE) = true := by decide
/-- V-STR-1. -/
theorem test_str : gives (step (boot 0x3000 0 [(0x3000, 0x7381)] [(.r6, 0xFFFF), (.r1, 0x0007)] []))
    (fun t => t.word 0x0000 == 0x0007 && t.pc == 0x3001) = true := by decide
/-- V-STR-2. -/
theorem test_str_base_itself : gives (step (boot 0x3000 0 [(0x3000, 0x74A0)] [(.r2, 0x4020)] []))
    (fun t => t.word 0x4000 == 0x4020) = true := by decide
/-- V-TRAP-3. -/
theorem test_getc : gives (step (boot 0x3000 4 [(0x3000, 0xF020)] [(.r0, 0xABCD)] [0xFF]))
    (fun t => t.reg .r0 == 0x00FF && t.reg .r7 == 0x3001 && t.pc == 0x3001 && t.cc == 1 && t.conOut == []) = true := by decide
/-- V-TRAP-2. -/
theorem test_getc_nul : gives (step (boot 0x3000 1 [(0x3000, 0xF020)] [] [0x00]))
    (fun t => t.reg .r0 == 0 && t.cc == 2) = true := by decide
/-- V-TRAP-5. -/
theorem test_out : gives (step (boot 0x3004 4 [(0x3004, 0xF021)] [(.r0, 0x1248)] []))
    (fun t => t.reg .r7 == 0x3005 && t.cc == 4 && t.conOut == [.char 0x48]) = true := by decide
/-- V-TRAP-8. -/
theorem test_puts : gives (step (boot 0x3000 0 [(0x3000, 0xF022), (0xFFFF, 0x4141), (0x0000, 0x4100)] [(.r0, 0xFFFF)] []))
    (fun t => t.reg .r0 == 0xFFFF && t.reg .r7 == 0x3001 && t.conOut == [.char 0x41, .char 0x00, .flush]) = true := by decide
/-- V-TRAP-6. -/
theorem test_puts_stops_at_zero : gives (step (boot 0x3000 1 [(0x3000, 0xF022), (0x4000, 0x0048), (0x4001, 0x0049), (0x4003, 0x004A)] [(.r0, 0x4000)] []))
    (fun t => t.conOut == [.char 0x48, .char 0x49, .flush] && t.cc == 1) = true := by decide
/-- V-TRAP-9. -/
theorem test_in : gives (step (boot 0x3000 0 [(0x3000, 0xF023)] [] [0x79]))
    (fun t => t.reg .r0 == 0x0079 && t.reg .r7 == 0x3001 && t.cc == 1 && t.conOut == [.notice .inPrompt, .char 0x79]) = true := by decide
/-- V-TRAP-10. -/
theorem test_putsp_odd : gives (step (boot 0x3000 0 [(0x3000, 0xF024), (0x4000, 0x6548), (0x4001, 0x006C)] [(.r0, 0x4000)] []))
    (fun t => t.conOut == [.char 0x48, .char 0x65, .char 0x6C, .flush]) = true := by decide
/-- V-TRAP-11. -/
theorem test_putsp_low_byte_zero : gives (step (boot 0x3000 0 [(0x3000, 0xF024), (0x4000, 0x4100), (0x4001, 0x4942)] [(.r0, 0x4000)] []))
    (fun t => t.conOut == [.char 0x00, .char 0x41, .char 0x42, .char 0x49, .flush]) = true := by decide
/-- V-TRAP-12. -/
theorem test_halt : gives (step (boot 0x3001 1 [(0x3001, 0xF025)] [(.r0, 5)] []))
    (fun t => t.reg .r7 == 0x3002 && t.pc == 0x3002 && t.cc == 1 && t.conOut == [.notice .halt, .flush] && t.run == .halted .success) = true := by decide
/-- V-TRAP-15. -/
theorem test_trap_invalid : gives (step (boot 0x3000 0 [(0x3000, 0xF026)] [] []))
    (fun t => t.reg .r7 == 0x3001 && t.conOut == [.notice .badTrap, .flush] && t.run == .halted .failure) = true := by decide
/-- V-TRAP-17. -/
theorem test_trap_invalid_low : gives (step (boot 0x3000 0 [(0x3000, 0xF01F)] [] []))
    (fun t => t.run == .halted .failure) = true := by decide
/-- V-RTI-2. -/
theorem test_rti : gives (step (boot 0x3000 0 [(0x3000, 0x8FFF)] [(.r7, 0x1234)] []))
    (fun t => t.pc == 0x3001 && t.reg .r7 == 0x1234 && t.conOut == [.notice .rti]) = true := by decide
/-- V-RES-2. -/
theorem test_res : gives (step (boot 0x3000 1 [(0x3000, 0xDABC)] [] []))
    (fun t => t.pc == 0x3001 && t.cc == 1 && t.conOut == [.notice .res]) = true := by decide
/-- V-FETCH-1. -/
theorem test_fetch_at_top_of_memory : gives (step (boot 0xFFFF 0 [(0xFFFF, 0x1021)] [] []))
    (fun t => t.reg .r0 == 1 && t.pc == 0 && t.cc == 1) = true := by decide
/-- V-FETCH-2. -/
theorem test_fetch_from_keyboard_status : gives (step (boot 0xFE00 0 [(0xFE00, 0x1021)] [] [0x61]))
    (fun t => t.pc == 0xFE01 && t.word 0xFE00 == 0x8000 && t.word 0xFE02 == 0x0061 && t.conOut == [.notice .rti] && t.reg .r0 == 0) = true := by decide

/-- V-TRAP-4: GETC at end of input does not complete (D12). -/
theorem test_getc_at_end_of_input : (match step (boot 0x3000 0 [(0x3000, 0xF020)] [] []) with
    | .fault (.endOfInput s) => s.reg .r7 == 0x3001 && s.conOut == []
    | _ => false) = true := by decide

/-- R31: a HALTED machine takes no step. -/
theorem test_halted_takes_no_step : (match step (terminate .success State.reset) with
    | .fault (.halted .success) => true
    | _ => false) = true := by decide

/-- The word placed for the host's question runs as the first instruction after reset. -/
theorem test_withFetchWord : gives (step (State.reset.withFetchWord 16 0x1025)) (fun t => t.reg .r0 == 5 && t.pc == 0x3001) = true := by
  decide

/-- Writing the reset word removes the entry; entries stay sorted. -/
theorem test_memory_canonical : ((State.reset.setWord 0x4000 1).setWord 0x3000 2).mem = [(0x3000, 2), (0x4000, 1)] ∧
    ((State.reset.setWord 0x4000 1).setWord 0x4000 0).mem = [] := by decide


/-! ## Witnesses: the hypotheses of each statement that has some, met together; each clause where there are several -/

/-- Input not answered yet. -/
def silent (s : State) : State := { s with conIn := ⟨[], false⟩ }

theorem witness_DecodeOfEncode : (Instr.trap 0x26).wf = true ∧ (Instr.br false false true 0x1FF).wf = true := by decide

theorem witness_IgnoredBits : (0x14C4 : Word) ≠ 0x14DC ∧
    (0x14C4 : Word) &&& ~~~ (decode 0x14C4).row.ignored = 0x14DC &&& ~~~ (decode 0x14C4).row.ignored := by decide

theorem witness_SignExtension_index : (5 ≤ 5 ∧ 5 < 16) ∧ (6 ≤ 15 ∧ 15 < 16) ∧ (9 ≤ 9 ∧ 9 < 16) ∧ (11 ≤ 15 ∧ 15 < 16) := by
  decide

theorem witness_Branch_taken_and_not : ((true || false || false) = true) ∧ (boot 0x3000 4 [] [] []).cc.getLsbD 2 = true ∧
    ¬((true = true ∧ (boot 0x3000 1 [] [] []).cc.getLsbD 2 = true) ∨
      (false = true ∧ (boot 0x3000 1 [] [] []).cc.getLsbD 1 = true) ∨
      (false = true ∧ (boot 0x3000 1 [] [] []).cc.getLsbD 0 = true)) := by decide

theorem witness_UntestedBranch : State.reset.cc = 0x0000 := by decide

theorem witness_Jump_base : Reg.r6 ≠ Reg.r7 := by decide

theorem witness_Jsrr_bases : Reg.r7 = Reg.r7 ∧ Reg.r6 ≠ Reg.r7 := by decide

theorem witness_MemRead_plain : (0xFE01 : Word) ≠ 0xFE00 ∧ (0xFE02 : Word) ≠ 0xFE00 := by decide
theorem witness_MemRead_key : (boot 0x3000 0 [] [] [0xFF, 0x00]).conIn.bytes = 0xFF :: [0x00] ∧ (0xFF : Byte) ≠ 0x00 := by
  decide
theorem witness_MemRead_nul : (boot 0x3000 0 [] [] [0x00]).conIn.bytes = 0x00 :: [] := by decide
theorem witness_MemRead_end : State.reset.conIn.bytes = [] ∧ State.reset.conIn.ended = true := by decide
theorem witness_MemRead_silent : (silent State.reset).conIn.bytes = [] ∧ (silent State.reset).conIn.ended = false := by decide

theorem witness_MemWrite_other_address : (0xFE02 : Word) ≠ 0xFE00 := by decide
theorem witness_MemWrite_then_read :
    (∃ x m, memRead 0xFE02 (memWrite 0xFE00 0x1234 State.reset) = .next (x, m) ∧ (0xFE02 : Word) ≠ 0xFE00) ∧
    (∃ x m, memRead 0xFE00 (memWrite 0xFE00 0x1234 State.reset) = .next (x, m)) ∧
    (∃ x m, memRead 0xFE02 (memWrite 0xFE02 0x1234 State.reset) = .next (x, m)) ∧
    (∃ x m, memRead 0xFE00 (memWrite 0xFE02 0x1234 State.reset) = .next (x, m)) ∧
    State.reset.conIn.bytes = [] :=
  ⟨⟨_, _, rfl, by decide⟩, ⟨_, _, rfl⟩, ⟨_, _, rfl⟩, ⟨_, _, rfl⟩, rfl⟩

theorem witness_CanonicalMemories : Memory.wf [(0, 1), (65535, 2)] = true ∧ Memory.wf [(0, 1), (65535, 2)] = true ∧
    ∀ a : Word, Memory.get [(0, 1), (65535, 2)] a.toNat = Memory.get [(0, 1), (65535, 2)] a.toNat :=
  ⟨by decide, by decide, fun _ => rfl⟩

/-- LD, LDI and STI at 0xFE00 with an answer waiting, by a byte and by end of input. -/
theorem witness_pcRelative_poll :
    ((boot 0xFE00 0 [] [] [0x61]).pc + (0 : BitVec 9).signExtend 16 = 0xFE00 → (boot 0xFE00 0 [] [] [0x61]).portAnswers) ∧
    ((boot 0xFE00 0 [] [] []).pc + (0 : BitVec 9).signExtend 16 = 0xFE00 → (boot 0xFE00 0 [] [] []).portAnswers) ∧
    (boot 0xFE00 0 [] [] []).pc + (0 : BitVec 9).signExtend 16 = 0xFE00 := by decide

theorem witness_Ldi_pointer_to_poll :
    (boot 0x3000 0 [(0x3001, 0xFE00)] [] [0x61]).word ((boot 0x3000 0 [(0x3001, 0xFE00)] [] [0x61]).pc +
      (1 : BitVec 9).signExtend 16) = 0xFE00 ∧ (boot 0x3000 0 [(0x3001, 0xFE00)] [] [0x61]).portAnswers := by decide

theorem witness_Ldr_poll :
    (boot 0x3000 0 [] [(.r2, 0xFE20)] [0x61]).reg .r2 + (0x20 : BitVec 6).signExtend 16 = 0xFE00 ∧
    (boot 0x3000 0 [] [(.r2, 0xFE20)] [0x61]).portAnswers := by decide

theorem witness_plain_addresses :
    (boot 0x3000 0 [] [] []).pc + (0x100 : BitVec 9).signExtend 16 ≠ 0xFE00 ∧
    (boot 0x3000 0 [] [(.r2, 0xFFFF)] []).reg .r2 + (1 : BitVec 6).signExtend 16 ≠ 0xFE00 := by decide

theorem witness_Reads_wait :
    (silent (boot 0xFE00 0 [] [] [])).pc + (0 : BitVec 9).signExtend 16 = 0xFE00 ∧
    ((silent (boot 0x3000 0 [(0x3000, 0xFE00)] [] [])).pc + (0 : BitVec 9).signExtend 16 ≠ 0xFE00 ∧
      (silent (boot 0x3000 0 [(0x3000, 0xFE00)] [] [])).word (0x3000 + (0 : BitVec 9).signExtend 16) = 0xFE00) ∧
    (silent (boot 0x3000 0 [] [(.r1, 0xFE00)] [])).reg .r1 + (0 : BitVec 6).signExtend 16 = 0xFE00 ∧
    (silent (boot 0x3000 0 [] [(.r1, 0xFE00)] [])).conIn.bytes = [] ∧
    (silent (boot 0x3000 0 [] [(.r1, 0xFE00)] [])).conIn.ended = false := by decide

/-- At dispatch (pc incremented): ST with offset 0, STR and STI that store at pc. -/
theorem witness_AStoredWord :
    (boot 0x3001 0 [] [] []).run = .running ∧ (boot 0x3001 0 [] [] []).pc ≠ 0xFE00 ∧
    (∃ t, exec (.st .r0 0) (boot 0x3001 0 [] [] []) = .next t) ∧
    ((boot 0x3001 0 [] [(.r6, 0x3001)] []).reg .r6 + (0 : BitVec 6).signExtend 16 = 0x3001 ∧
      ∃ t, exec (.str .r0 .r6 0) (boot 0x3001 0 [] [(.r6, 0x3001)] []) = .next t) ∧
    ((boot 0x3001 0 [(0x3002, 0x3001)] [] []).word (0x3001 + (1 : BitVec 9).signExtend 16) = 0x3001 ∧
      ∃ t, exec (.sti .r0 1) (boot 0x3001 0 [(0x3002, 0x3001)] [] []) = .next t) :=
  ⟨by decide, by decide, ⟨_, rfl⟩, ⟨by decide, _, rfl⟩, ⟨by decide, _, rfl⟩⟩

theorem witness_EveryTrap : ∃ t, exec (.trap 0x21) State.reset = .next t := ⟨_, rfl⟩

theorem witness_Puts : StringAt (boot 0x3000 0 [(0xFFFF, 0x4141), (0x0000, 0x4100)] [(.r0, 0xFFFF)] [])
    ((boot 0x3000 0 [(0xFFFF, 0x4141), (0x0000, 0x4100)] [(.r0, 0xFFFF)] []).reg .r0) [0x4141, 0x4100] :=
  ⟨by decide, by decide, by decide, by decide, by decide, by decide, by decide, by decide⟩

theorem witness_Puts_empty : StringAt State.reset (State.reset.reg .r0) [] := ⟨by decide, by decide⟩

/-- A string that begins at 0xFE00 with a key waiting: the poll answers 0x8000, and the word at 0xFE01 ends it. -/
theorem witness_StringReads : ∃ m, StringReads (boot 0x3000 0 [] [(.r0, 0xFE00)] [0x61])
    ((boot 0x3000 0 [] [(.r0, 0xFE00)] [0x61]).reg .r0) [0x8000] m := ⟨_, by decide, _, rfl, rfl⟩

theorem witness_AnInvalidVector : ((0x1F : BitVec 8).toNat < 0x20) ∧ (0x25 < (0x26 : BitVec 8).toNat) := by decide

theorem witness_StepRuns : State.reset.run = .running ∧ State.reset.pc ≠ 0xFE00 ∧
    memRead State.reset.pc State.reset = .next (0x0000, State.reset) ∧
    memRead (silent (boot 0xFE00 0 [] [] [])).pc (silent (boot 0xFE00 0 [] [] [])) =
      .fault (.inputPending (silent (boot 0xFE00 0 [] [] []))) := ⟨by decide, by decide, rfl, rfl⟩

theorem witness_AFetch : (boot 0xFE00 0 [] [] [0x61]).run = .running ∧ (boot 0xFE00 0 [] [] [0x61]).pc = 0xFE00 ∧
    (boot 0xFE00 0 [] [] [0x61]).conIn.bytes = 0x61 :: [] ∧ (0x61 : Byte) ≠ 0x00 ∧
    (boot 0xFE00 0 [] [] [0x00]).conIn.bytes = 0x00 :: [] ∧ (boot 0xFE00 0 [] [] [0x00]).run = .running ∧
    (boot 0xFE00 0 [] [] [0x00]).pc = 0xFE00 ∧ (boot 0xFE00 0 [] [] []).conIn.bytes = [] ∧
    (boot 0xFE00 0 [] [] []).conIn.ended = true ∧ (boot 0xFE00 0 [] [] []).run = .running ∧
    (boot 0xFE00 0 [] [] []).pc = 0xFE00 := by decide

theorem witness_Halted : (terminate .failure State.reset).run = .halted .failure := by decide

theorem witness_Invariant : State.reset.Inv ∧ ∃ t, step State.reset = .next t :=
  ⟨⟨by decide, by decide, fun h => absurd rfl h⟩, _, rfl⟩

theorem witness_ARunEnds :
    (∃ w m t, memRead (boot 0x3000 0 [(0x3000, 0xF025)] [] []).pc (boot 0x3000 0 [(0x3000, 0xF025)] [] []) = .next (w, m) ∧
      step (boot 0x3000 0 [(0x3000, 0xF025)] [] []) = .next t ∧ t.run = .halted .success) ∧
    (∃ w m t, memRead (boot 0x3000 0 [(0x3000, 0xF026)] [] []).pc (boot 0x3000 0 [(0x3000, 0xF026)] [] []) = .next (w, m) ∧
      step (boot 0x3000 0 [(0x3000, 0xF026)] [] []) = .next t ∧ t.run = .halted .failure) :=
  ⟨⟨_, _, _, rfl, rfl, rfl⟩, ⟨_, _, _, rfl, rfl, rfl⟩⟩

/-- Each of the three ends of a step is met by a running machine. -/
theorem witness_AStepStops : (∃ t, step State.reset = .next t) ∧
    (∃ u, step (silent (boot 0x3000 0 [(0x3000, 0xF020)] [] [])) = .fault (.inputPending u)) ∧
    (∃ u, step (boot 0x3000 0 [(0x3000, 0xF020)] [] []) = .fault (.endOfInput u)) := ⟨⟨_, rfl⟩, ⟨_, rfl⟩, ⟨_, rfl⟩⟩

/-- The whole-machine frames: a flag setter, a link writer, a store-free form and a form that stays in sequence complete. -/
theorem witness_frames : (∃ t, exec (.add .r0 .r0 .r0) State.reset = .next t) ∧ flagSource (.add .r0 .r0 .r0) = some .r0 ∧
    (∃ t, exec (.jsr 0) State.reset = .next t) ∧ flagSource (.jsr 0) = none ∧ writesLink (.jsr 0) = true ∧
    stores (.jsr 0) = false ∧ transfersControl (.add .r0 .r0 .r0) = false :=
  ⟨⟨_, rfl⟩, by decide, ⟨_, rfl⟩, by decide, by decide, by decide, by decide⟩

/-- A form that reads no memory, and a load that polls, complete; neither stores. -/
theorem witness_MemoryIsWritten :
    (∃ t, exec (.add .r0 .r0 .r0) State.reset = .next t) ∧ stores (.add .r0 .r0 .r0) = false ∧
    readsMemory (.add .r0 .r0 .r0) = false ∧
    (∃ t, exec (.ld .r0 0) (boot 0xFE00 0 [] [] [0x61]) = .next t) ∧ stores (.ld .r0 0) = false :=
  ⟨⟨_, rfl⟩, by decide, by decide, ⟨_, rfl⟩, by decide⟩

end Sys2Proof.Tests
end

section
/-! PROOFS. Sign and zero extension of the operand forms (00_scope.md R11), for every width of the immediate. -/

namespace Sys2Proof.Laws

open Sys2Proof.Machine

theorem setWidth_signExtend_self {w n : Nat} (h : w ≤ n) (v : BitVec w) : (v.signExtend n).setWidth w = v := by
  ext i hi
  have hn : i < n := by omega
  simp only [BitVec.getElem_setWidth, BitVec.getLsbD_eq_getElem hn, BitVec.getElem_signExtend, dif_pos hi]

theorem getLsbD_signExtend_of_ge {w n i : Nat} (hw : w ≤ i) (hn : i < n) (v : BitVec w) :
    (v.signExtend n).getLsbD i = v.getLsbD (w - 1) := by
  have hi : ¬ i < w := by omega
  rw [BitVec.getLsbD_eq_getElem hn, BitVec.getElem_signExtend, dif_neg hi, BitVec.msb_eq_getLsbD_last]

theorem signExtend_keeps_low_and_copies_sign {w n : Nat} (h : w ≤ n) (v : BitVec w) :
    (v.signExtend n).setWidth w = v ∧ ∀ i, w ≤ i → i < n → (v.signExtend n).getLsbD i = v.getLsbD (w - 1) :=
  ⟨setWidth_signExtend_self h v, fun _ hw hn => getLsbD_signExtend_of_ge hw hn v⟩

@[simp] theorem toNat_zext8 (b : Byte) : (zext8 b).toNat = b.toNat :=
  BitVec.toNat_setWidth_of_le (by decide)

/-- Settles O7: each `sext_N` is `signExtend` to 16 bits, so the fact about every width gives all four. -/
theorem signExtensionCopiesTheSignBit : Obligations.SignExtensionCopiesTheSignBit :=
  have width_le (w : Nat) (h : w ≤ 16) := signExtend_keeps_low_and_copies_sign (w := w) h
  ⟨width_le 5 (by decide), width_le 6 (by decide), width_le 9 (by decide), width_le 11 (by decide), toNat_zext8⟩

end Sys2Proof.Laws
end

section
/-! PROOFS. The condition flags as `setcc` derives them from a register (10_state.md R25). -/

namespace Sys2Proof.Laws

open Sys2Proof.Machine

/-- R25's three cases exclude each other: 0 has no bit 15. -/
theorem flagsDescribe_cases {cc v : Word} (h : FlagsDescribe cc v) :
    (v = 0x0000 ∧ v.getLsbD 15 = false ∧ cc = 0x0002) ∨
    (v ≠ 0x0000 ∧ v.getLsbD 15 = true ∧ cc = 0x0004) ∨
    (v ≠ 0x0000 ∧ v.getLsbD 15 = false ∧ cc = 0x0001) := by
  by_cases h0 : v = 0x0000
  · exact .inl ⟨h0, by rw [h0]; decide, h.zro h0⟩
  · cases hb : v.getLsbD 15 with
    | true => exact .inr (.inl ⟨h0, rfl, h.neg hb⟩)
    | false => exact .inr (.inr ⟨h0, rfl, h.pos h0 hb⟩)

/-- The three patterns differ, so each case of R25 can be read back from the pattern. -/
theorem flagsDescribe_iff {cc v : Word} (h : FlagsDescribe cc v) :
    (cc = 0x0002 ↔ v = 0x0000) ∧ (cc = 0x0004 ↔ v.getLsbD 15 = true) ∧
    (cc = 0x0001 ↔ v ≠ 0x0000 ∧ v.getLsbD 15 = false) := by
  obtain ⟨hv, hb, rfl⟩ | ⟨hv, hb, rfl⟩ | ⟨hv, hb, rfl⟩ := flagsDescribe_cases h <;>
    simp only [ne_eq, hv, hb] <;> decide

/-- Settles O8: `setcc` writes `flagsOf` of the register to cc, and `flagsOf` gives the pattern R25 words. -/
theorem setccDerivesTheFlagsFromTheRegister : Obligations.SetccDerivesTheFlagsFromTheRegister := fun r s =>
  have ⟨zro, neg, pos⟩ := flagsDescribe_iff (flagsOf_describes (s.reg r))
  ⟨zro, neg, pos, rfl⟩

end Sys2Proof.Laws
end

section
/-! PROOFS. What the write of a result changes and leaves unchanged, and the immediate forms of ADD and AND
(41_operate.md R101, R103). -/

namespace Sys2Proof.Laws

open Sys2Proof.Machine

/-! ## The write of a result: value, flags and frame -/

theorem reg_writeResult_self (dr : Reg) (v : Word) (s : State) : (writeResult dr v s).reg dr = v := by
  simp only [writeResult_eq, setCc_reg, setReg_reg, if_true]

theorem flagsDescribe_writeResult (dr : Reg) (v : Word) (s : State) : FlagsDescribe (writeResult dr v s).cc v := by
  rw [writeResult_eq, setCc_cc]
  exact flagsOf_describes v

theorem sameCoreBut_writeResult (dr : Reg) (v : Word) (s : State) : SameCoreBut [dr] s (writeResult dr v s) where
  regs r hr := by
    rw [writeResult_eq, setCc_reg, setReg_reg, if_neg (List.ne_of_not_mem_cons hr)]
  conOut := rfl
  run := rfl

theorem sameStore_writeResult (dr : Reg) (v : Word) (s : State) : SameStore s (writeResult dr v s) :=
  ⟨fun _ => rfl, rfl⟩

/-- An instruction that only writes a result completes with that value, its flags, and nothing else changed. -/
theorem writesResult_of_exec_eq {i : Instr} {dr : Reg} {v : Word} {s : State}
    (h : exec i s = .next (writeResult dr v s)) :
    ∃ t, exec i s = .next t ∧ t.reg dr = v ∧ FlagsDescribe t.cc v ∧ t.pc = s.pc ∧
      SameCoreBut [dr] s t ∧ SameStore s t :=
  ⟨_, h, reg_writeResult_self dr v s, flagsDescribe_writeResult dr v s, rfl,
    sameCoreBut_writeResult dr v s, sameStore_writeResult dr v s⟩

/-! ## The immediate forms -/

theorem decode_formatOPI_add (dr sr1 : Reg) (imm5 : BitVec 5) :
    decode (formatOPI 0x1 dr.bits sr1.bits imm5) = .addi dr sr1 imm5 := by
  simp [decode]

theorem decode_formatOPI_and (dr sr1 : Reg) (imm5 : BitVec 5) :
    decode (formatOPI 0x5 dr.bits sr1.bits imm5) = .andi dr sr1 imm5 := by
  simp [decode]

theorem exec_addi (dr sr1 : Reg) (imm5 : BitVec 5) (s : State) :
    exec (.addi dr sr1 imm5) s = .next (writeResult dr (s.reg sr1 + imm5.signExtend 16) s) := rfl

theorem exec_andi (dr sr1 : Reg) (imm5 : BitVec 5) (s : State) :
    exec (.andi dr sr1 imm5) s = .next (writeResult dr (s.reg sr1 &&& imm5.signExtend 16) s) := rfl

/-- Settles O10: the word decodes by its fields, and ADD's immediate form only writes the sum as a result. -/
theorem addImmediateSumsAndSetsFlags : Obligations.AddImmediateSumsAndSetsFlags := fun dr sr1 imm5 =>
  ⟨decode_formatOPI_add dr sr1 imm5, fun s => writesResult_of_exec_eq (exec_addi dr sr1 imm5 s)⟩

/-- Settles O12: the word decodes by its fields, and AND's immediate form only writes the AND as a result. -/
theorem andImmediateMasksAndSetsFlags : Obligations.AndImmediateMasksAndSetsFlags := fun dr sr1 imm5 =>
  ⟨decode_formatOPI_and dr sr1 imm5, fun s => writesResult_of_exec_eq (exec_andi dr sr1 imm5 s)⟩

end Sys2Proof.Laws
end

section
/-! PROOFS. What a subroutine call changes and leaves unchanged, and JSR (42_control.md R113). -/

namespace Sys2Proof.Laws

open Sys2Proof.Machine

/-! ## The link followed by a jump -/

theorem reg_linkR7_setPc_r7 (v : Word) (s : State) : ((linkR7 s).setPc v).reg .r7 = s.pc := by
  rw [setPc_reg, linkR7_eq, setReg_reg, if_pos rfl]

theorem sameCoreBut_linkR7_setPc (v : Word) (s : State) : SameCoreBut [.r7] s ((linkR7 s).setPc v) where
  regs r hr := by
    rw [setPc_reg, linkR7_eq, setReg_reg, if_neg (List.ne_of_not_mem_cons hr)]
  conOut := rfl
  run := rfl

theorem sameStore_linkR7_setPc (v : Word) (s : State) : SameStore s ((linkR7 s).setPc v) :=
  ⟨fun _ => rfl, rfl⟩

/-- An instruction that only links and jumps completes with the old pc in R7, the target in pc, and nothing else
changed. -/
theorem linksAndJumps_of_exec_eq {i : Instr} {v : Word} {s : State}
    (h : exec i s = .next ((linkR7 s).setPc v)) :
    ∃ t, exec i s = .next t ∧ t.reg .r7 = s.pc ∧ t.pc = v ∧ t.cc = s.cc ∧
      SameCoreBut [.r7] s t ∧ SameStore s t :=
  ⟨_, h, reg_linkR7_setPc_r7 v s, rfl, rfl, sameCoreBut_linkR7_setPc v s, sameStore_linkR7_setPc v s⟩

/-! ## JSR -/

theorem decode_formatJSR (off11 : BitVec 11) : decode (formatJSR 0x4 off11) = .jsr off11 := by
  simp [decode]

theorem exec_jsr (off11 : BitVec 11) (s : State) :
    exec (.jsr off11) s = .next ((linkR7 s).setPc (s.pc + off11.signExtend 16)) := rfl

/-- Settles O17: the word decodes by its fields, and JSR only links and jumps to pc + sext_11. -/
theorem jsrLinksAndGoesPcRelative : Obligations.JsrLinksAndGoesPcRelative := fun off11 =>
  ⟨decode_formatJSR off11, fun s => linksAndJumps_of_exec_eq (exec_jsr off11 s)⟩

end Sys2Proof.Laws
end

section
/-! PROOFS. When a read completes and what it leaves unchanged, and the loads LD, LDI, LDR, LEA (43_load_store.md R120
to R123). -/

namespace Sys2Proof.Laws

open Sys2Proof.Machine

/-! ## Reads through `memRead` -/

/-- A read waits only at 0xFE00, and only for a silent port (40_execution_cycle.md R88). -/
theorem memRead_completes {a : Word} {s : State} (h : a = kbsr → s.portAnswers) :
    ∃ v m, memRead a s = .next (v, m) := by
  obtain hnext | ⟨rfl, hempty, hopen, -⟩ := memRead_cases a s
  · exact hnext
  · obtain hbytes | hended := h rfl
    · exact absurd hempty hbytes
    · simp [hopen] at hended

theorem memRead_next_of_ne_kbsr {a v : Word} {s m : State} (hr : memRead a s = .next (v, m)) (ha : a ≠ kbsr) :
    v = s.word a ∧ m = s := by
  cases hr.symm.trans (memRead_plain s ha)
  exact ⟨rfl, rfl⟩

/-- A poll answers 0x8000 or 0 (20_memory.md R43, D4), so a pointer read there never points to 0xFE00 again. -/
theorem memRead_kbsr_next_ne_kbsr {v : Word} {s m : State} (hr : memRead kbsr s = .next (v, m)) : v ≠ kbsr := by
  obtain ⟨b, bs, hs, -⟩ | ⟨hs, he, -⟩ | ⟨hs, he, -⟩ := askPort_cases s
  · obtain rfl | hb := eq_or_ne b 0x00
    · cases hr.symm.trans (memRead_nul hs)
      decide
    · cases hr.symm.trans (memRead_key hs hb)
      decide
  · cases hr.symm.trans (memRead_end hs he)
    decide
  · cases hr.symm.trans (memRead_pending hs he)

theorem sameCoreBut_of_memRead {a v : Word} {s m : State} (hr : memRead a s = .next (v, m)) : SameCoreBut [] s m :=
  have ⟨frame, out⟩ := memRead_frame hr
  ⟨fun r _ => congrArg (·.get r) frame.regs, out, frame.run⟩

theorem sameCoreBut_trans_of_nil {rs : List Reg} {s m t : State} (h : SameCoreBut [] s m) (h' : SameCoreBut rs m t) :
    SameCoreBut rs s t :=
  ⟨fun r hr => (h'.regs r hr).trans (h.regs r List.not_mem_nil), h'.conOut.trans h.conOut, h'.run.trans h.run⟩

/-! ## Loads -/

/-- Every load ends so: the word read goes to DR with its flags, and the rest is as the read left it. -/
theorem loadInto_completes (dr : Reg) {a : Word} {s : State} (h : a = kbsr → s.portAnswers) :
    ∃ v m t, memRead a s = .next (v, m) ∧ (a ≠ kbsr → v = s.word a ∧ m = s) ∧ loadInto dr a s = .next t ∧
      t.reg dr = v ∧ FlagsDescribe t.cc v ∧ t.pc = s.pc ∧ SameCoreBut [dr] s t ∧ SameStore m t := by
  obtain ⟨v, m, hr⟩ := memRead_completes h
  have hpc : m.pc = s.pc := (memRead_frame hr).1.pc
  exact ⟨v, m, writeResult dr v m, hr, memRead_next_of_ne_kbsr hr, loadInto_eq_next.2 ⟨v, m, hr, rfl⟩,
    reg_writeResult_self dr v m, flagsDescribe_writeResult dr v m, hpc,
    sameCoreBut_trans_of_nil (sameCoreBut_of_memRead hr) (sameCoreBut_writeResult dr v m),
    sameStore_writeResult dr v m⟩

/-- The second read of LDI completes when the first one did: a pointer read by a poll is not 0xFE00, and a plain read
leaves the port as it was. -/
theorem portAnswers_after_pointer {a p : Word} {s m : State} (h : a = kbsr ∨ s.word a = kbsr → s.portAnswers)
    (hr : memRead a s = .next (p, m)) (hp : p = kbsr) : m.portAnswers := by
  by_cases ha : a = kbsr
  · subst ha
    exact absurd hp (memRead_kbsr_next_ne_kbsr hr)
  · obtain ⟨rfl, rfl⟩ := memRead_next_of_ne_kbsr hr ha
    exact h (.inr hp)

theorem decode_formatPC9_ld (dr : Reg) (off9 : BitVec 9) : decode (formatPC9 0x2 dr.bits off9) = .ld dr off9 := by
  simp [decode]

theorem decode_formatPC9_ldi (dr : Reg) (off9 : BitVec 9) : decode (formatPC9 0xA dr.bits off9) = .ldi dr off9 := by
  simp [decode]

theorem decode_formatPC9_lea (dr : Reg) (off9 : BitVec 9) : decode (formatPC9 0xE dr.bits off9) = .lea dr off9 := by
  simp [decode]

theorem decode_formatBASE6_ldr (dr base : Reg) (off6 : BitVec 6) :
    decode (formatBASE6 0x6 dr.bits base.bits off6) = .ldr dr base off6 := by
  simp [decode]

theorem exec_ld (dr : Reg) (off9 : BitVec 9) (s : State) :
    exec (.ld dr off9) s = loadInto dr (s.pc + off9.signExtend 16) s := rfl

theorem exec_ldr (dr base : Reg) (off6 : BitVec 6) (s : State) :
    exec (.ldr dr base off6) s = loadInto dr (s.reg base + off6.signExtend 16) s := rfl

theorem exec_lea (dr : Reg) (off9 : BitVec 9) (s : State) :
    exec (.lea dr off9) s = .next (writeResult dr (s.pc + off9.signExtend 16) s) := rfl

theorem exec_ldi (dr : Reg) (off9 : BitVec 9) (s : State) :
    exec (.ldi dr off9) s = thenDo (memRead (s.pc + off9.signExtend 16) s) fun q => loadInto dr q.1 q.2 := rfl

theorem exec_ldi_of_memRead {dr : Reg} {off9 : BitVec 9} {p : Word} {s m : State}
    (hr : memRead (s.pc + off9.signExtend 16) s = .next (p, m)) : exec (.ldi dr off9) s = loadInto dr p m := by
  rw [exec_ldi, hr, thenDo_next]

/-- Settles O22: the word decodes by its fields, and LD is one load at pc + sext_9. -/
theorem ldLoadsPcRelative : Obligations.LdLoadsPcRelative := fun dr off9 => by
  refine ⟨decode_formatPC9_ld dr off9, fun s h => ?_⟩
  rw [exec_ld]
  exact loadInto_completes dr h

/-- Settles O24: the word decodes by its fields, and LDR is one load at the old base value plus sext_6. -/
theorem ldrLoadsBasePlusOffset : Obligations.LdrLoadsBasePlusOffset := fun dr base off6 => by
  refine ⟨decode_formatBASE6_ldr dr base off6, fun s h => ?_⟩
  rw [exec_ldr]
  exact loadInto_completes dr h

/-- Settles O23: the pointer read completes, and LDI is then one load at the pointer in the state that read left. -/
theorem ldiLoadsThroughThePointer : Obligations.LdiLoadsThroughThePointer := fun dr off9 => by
  refine ⟨decode_formatPC9_ldi dr off9, fun s h => ?_⟩
  obtain ⟨p, m, hp⟩ := memRead_completes fun ha => h (.inl ha)
  obtain ⟨v, m', t, hv, hplain, ht, hreg, hflags, hpc, hcore, hstore⟩ :=
    loadInto_completes dr (portAnswers_after_pointer h hp)
  exact ⟨p, m, v, m', t, hp, hv, memRead_next_of_ne_kbsr hp, hplain, (exec_ldi_of_memRead hp).trans ht, hreg, hflags,
    hpc.trans (memRead_frame hp).1.pc, sameCoreBut_trans_of_nil (sameCoreBut_of_memRead hp) hcore, hstore⟩

/-- Settles O25: the word decodes by its fields, and LEA only writes the address as a result. -/
theorem leaLoadsTheAddressItself : Obligations.LeaLoadsTheAddressItself := fun dr off9 =>
  ⟨decode_formatPC9_lea dr off9, fun s => writesResult_of_exec_eq (exec_lea dr off9 s)⟩

end Sys2Proof.Laws
end

section
/-! PROOFS. What a store changes and leaves unchanged, and ST, STI, STR (43_load_store.md R124 to R126). -/

namespace Sys2Proof.Laws

open Sys2Proof.Machine

/-! ## The write of a word -/

theorem word_memWrite_self (a v : Word) (s : State) : (memWrite a v s).word a = v := by
  rw [memWrite_eq, setWord_word, if_pos rfl]

theorem word_memWrite_of_ne {a b : Word} (v : Word) (s : State) (h : b ≠ a) : (memWrite a v s).word b = s.word b := by
  rw [memWrite_eq, setWord_word, if_neg h]

theorem sameCoreBut_memWrite (a v : Word) (s : State) : SameCoreBut [] s (memWrite a v s) :=
  ⟨fun _ _ => rfl, rfl, rfl⟩

/-- An instruction that only stores `v` at `a` completes with it there, every other word as before, and nothing else
changed. -/
theorem storesWord_of_exec_eq {i : Instr} {a v : Word} {s : State} (h : exec i s = .next (memWrite a v s)) :
    ∃ t, exec i s = .next t ∧ (∀ b, b = a → t.word b = v ∧ ∀ c, c ≠ b → t.word c = s.word c) ∧
      t.conIn = s.conIn ∧ t.pc = s.pc ∧ t.cc = s.cc ∧ SameCoreBut [] s t := by
  refine ⟨_, h, ?_, rfl, rfl, rfl, sameCoreBut_memWrite a v s⟩
  rintro b rfl
  exact ⟨word_memWrite_self b v s, fun _ => word_memWrite_of_ne v s⟩

/-! ## Stores -/

theorem decode_formatPC9_st (sr : Reg) (off9 : BitVec 9) : decode (formatPC9 0x3 sr.bits off9) = .st sr off9 := by
  simp [decode]

theorem decode_formatPC9_sti (sr : Reg) (off9 : BitVec 9) : decode (formatPC9 0xB sr.bits off9) = .sti sr off9 := by
  simp [decode]

theorem decode_formatBASE6_str (sr base : Reg) (off6 : BitVec 6) :
    decode (formatBASE6 0x7 sr.bits base.bits off6) = .str sr base off6 := by
  simp [decode]

theorem exec_st (sr : Reg) (off9 : BitVec 9) (s : State) :
    exec (.st sr off9) s = .next (memWrite (s.pc + off9.signExtend 16) (s.reg sr) s) := rfl

theorem exec_str (sr base : Reg) (off6 : BitVec 6) (s : State) :
    exec (.str sr base off6) s = .next (memWrite (s.reg base + off6.signExtend 16) (s.reg sr) s) := rfl

theorem exec_sti (sr : Reg) (off9 : BitVec 9) (s : State) :
    exec (.sti sr off9) s =
      thenDo (memRead (s.pc + off9.signExtend 16) s) fun q => .next (memWrite q.1 (q.2.reg sr) q.2) := rfl

theorem exec_sti_of_memRead {sr : Reg} {off9 : BitVec 9} {p : Word} {s m : State}
    (hr : memRead (s.pc + off9.signExtend 16) s = .next (p, m)) :
    exec (.sti sr off9) s = .next (memWrite p (m.reg sr) m) := by
  rw [exec_sti, hr, thenDo_next]

/-- Settles O27: the word decodes by its fields, and ST only stores SR at pc + sext_9. -/
theorem stStoresPcRelative : Obligations.StStoresPcRelative := fun sr off9 =>
  ⟨decode_formatPC9_st sr off9, fun s => storesWord_of_exec_eq (exec_st sr off9 s)⟩

/-- Settles O29: the word decodes by its fields, and STR only stores SR at the base plus sext_6. -/
theorem strStoresBasePlusOffset : Obligations.StrStoresBasePlusOffset := fun sr base off6 =>
  ⟨decode_formatBASE6_str sr base off6, fun s => storesWord_of_exec_eq (exec_str sr base off6 s)⟩

/-- Settles O28: the pointer read completes and leaves SR, pc and cc alone; STI then only stores SR at the pointer. -/
theorem stiStoresThroughThePointer : Obligations.StiStoresThroughThePointer := fun sr off9 => by
  refine ⟨decode_formatPC9_sti sr off9, fun s h => ?_⟩
  obtain ⟨p, m, hp⟩ := memRead_completes h
  have hframe := (memRead_frame hp).1
  have hcore := sameCoreBut_of_memRead hp
  have hsr : m.reg sr = s.reg sr := hcore.regs sr List.not_mem_nil
  exact ⟨p, m, _, hp, memRead_next_of_ne_kbsr hp, exec_sti_of_memRead hp,
    (word_memWrite_self p _ m).trans hsr, fun _ => word_memWrite_of_ne _ m, rfl, hframe.pc, hframe.cc,
    sameCoreBut_trans_of_nil hcore (sameCoreBut_memWrite p _ m)⟩

end Sys2Proof.Laws
end

section
/-! PROOFS. What trap entry and the end of a run change and leave unchanged, and OUT, HALT and the invalid vectors
(44_trap.md R143, R147, R148). -/

namespace Sys2Proof.Laws

open Sys2Proof.Machine

/-! ## Trap entry -/

theorem reg_enterTrap_r7 (s : State) : (enterTrap s).reg .r7 = s.pc := by
  rw [enterTrap_eq, setReg_reg, if_pos rfl]

theorem reg_enterTrap_of_ne {r : Reg} (s : State) (h : r ≠ .r7) : (enterTrap s).reg r = s.reg r := by
  rw [enterTrap_eq, setReg_reg, if_neg h]

/-! ## Vectors -/

/-- R148's bounds: no service has a vector outside 0x20..0x25. -/
theorem serviceOf_eq_none {v : BitVec 8} (h : v.toNat < 0x20 ∨ 0x25 < v.toNat) : serviceOf v = none := by
  unfold serviceOf
  split
  case h_7 => rfl
  all_goals omega

theorem decode_formatTRAP (x : BitVec 4) (v : BitVec 8) : decode (formatTRAP 0xF x v) = decodeTrap v := by
  simp [decode]

theorem decodeTrap_of_no_service {v : BitVec 8} (h : serviceOf v = none) : decodeTrap v = .trap v := by
  rw [decodeTrap, h]

theorem exec_trap (v : BitVec 8) (s : State) : exec (.trap v) s = serve (serviceOf v) (enterTrap s) := rfl

/-! ## OUT -/

theorem exec_trap_out (s : State) : exec (.trap 0x21) s = exec .out s := rfl

/-- The link goes to R7 alone, so OUT's routine finds in R0 what R0 held before the trap. -/
theorem exec_out (s : State) : exec .out s = .next ((enterTrap s).emit (.char ((s.reg .r0).extractLsb' 0 8))) := by
  rw [← reg_enterTrap_of_ne s (show Reg.r0 ≠ .r7 by decide)]
  rfl

theorem emitsBut_enterTrap_emit (e : ConEvent) (s : State) : EmitsBut [.r7] [e] s ((enterTrap s).emit e) where
  regs _ hr := reg_enterTrap_of_ne s (List.ne_of_not_mem_cons hr)
  conOut := rfl
  run := rfl

theorem sameStore_enterTrap_emit (e : ConEvent) (s : State) : SameStore s ((enterTrap s).emit e) :=
  ⟨fun _ => rfl, rfl⟩

/-- Settles O35: OUT links and emits one character, and nothing else changes. -/
theorem outWritesTheLowByteOfR0 : Obligations.OutWritesTheLowByteOfR0 := fun s =>
  ⟨_, exec_out s, (exec_trap_out s).trans (exec_out s), reg_enterTrap_r7 s, rfl, rfl,
    emitsBut_enterTrap_emit _ s, sameStore_enterTrap_emit _ s⟩

/-! ## The traps that end the run -/

/-- An instruction that links, gives a notice, flushes and terminates completes HALTED with the old pc in R7 and in pc,
the two events in the trace, and nothing else changed. -/
theorem endsRun_of_exec_eq {i : Instr} {st : ExitStatus} {k : NoticeKind} {s : State}
    (h : exec i s = .next (terminate st (conFlush (notice k (enterTrap s))))) :
    ∃ t, exec i s = .next t ∧ t.run = .halted st ∧ t.conOut = s.conOut ++ [.notice k, .flush] ∧
      t.reg .r7 = s.pc ∧ t.pc = s.pc ∧ t.cc = s.cc ∧ (∀ r, r ≠ .r7 → t.reg r = s.reg r) ∧ SameStore s t :=
  ⟨_, h, rfl, List.append_assoc .., reg_enterTrap_r7 s, rfl, rfl, fun _ => reg_enterTrap_of_ne s, fun _ => rfl, rfl⟩

theorem exec_trap_halt (s : State) : exec (.trap 0x25) s = exec .halt s := rfl

theorem exec_halt (s : State) :
    exec .halt s = .next (terminate .success (conFlush (notice .halt (enterTrap s)))) := rfl

theorem exec_trap_of_no_service {v : BitVec 8} (h : serviceOf v = none) (s : State) :
    exec (.trap v) s = .next (terminate .failure (conFlush (notice .badTrap (enterTrap s)))) := by
  rw [exec_trap, h]
  rfl

/-- Settles O40: HALT links and ends the run with status 0, and TRAP 0x25 is HALT. -/
theorem haltEndsTheRunWithSuccess : Obligations.HaltEndsTheRunWithSuccess := by
  refine ⟨rfl, fun s => ?_⟩
  obtain ⟨t, ht, hends⟩ := endsRun_of_exec_eq (exec_halt s)
  exact ⟨t, ht, (exec_trap_halt s).trans ht, hends⟩

/-- Settles O41: such a vector names no service, so its word stays a TRAP, which ends the run with status 1. -/
theorem anInvalidVectorEndsTheRunWithFailure : Obligations.AnInvalidVectorEndsTheRunWithFailure := by
  refine ⟨rfl, fun v hv => ?_⟩
  have hnone : serviceOf v = none := serviceOf_eq_none hv
  exact ⟨(decode_formatTRAP 0 v).trans (decodeTrap_of_no_service hnone),
    fun s => endsRun_of_exec_eq (exec_trap_of_no_service hnone s)⟩

end Sys2Proof.Laws
end

section
/-! PROOFS. The machine right after reset (70_reset_and_hazards.md R190). -/

namespace Sys2Proof.Laws

open Sys2Proof.Machine

@[simp] theorem reg_reset (r : Reg) : State.reset.reg r = 0x0000 := by
  cases r <;> rfl

/-- Reset lists no word, so every address reads as the reset word. -/
@[simp] theorem word_reset (a : Word) : State.reset.word a = 0x0000 := rfl

/-- Settles O46: each of the eight registers and every word read as zero; pc, cc and run stand in the reset state. -/
theorem resetZeroesAllButPc : Obligations.ResetZeroesAllButPc :=
  ⟨reg_reset, rfl, rfl, word_reset, rfl⟩

end Sys2Proof.Laws
end

section
/-! PROOFS. The decoder on every format, and decoding after encoding (30_encoding.md R61 to R70, R76, R77). -/

namespace Sys2Proof.Laws

/-! ## What a word of each format decodes to, ignored bits at every value (R72) -/

theorem decode_formatOPR_add (dr sr1 sr2 : Reg) (x : BitVec 2) :
    decode (formatOPR 0x1 dr.bits sr1.bits x sr2.bits) = .add dr sr1 sr2 := by
  simp [decode]

theorem decode_formatOPR_and (dr sr1 sr2 : Reg) (x : BitVec 2) :
    decode (formatOPR 0x5 dr.bits sr1.bits x sr2.bits) = .and dr sr1 sr2 := by
  simp [decode]

theorem decode_formatNOT (dr sr : Reg) (x : BitVec 6) : decode (formatNOT 0x9 dr.bits sr.bits x) = .not dr sr := by
  simp [decode]

theorem decode_formatBR (n z p : Bool) (off9 : BitVec 9) :
    decode (formatBR 0x0 n z p off9) = if n || z || p then .br n z p off9 else .nop off9 := by
  simp [decode, decodeBr]

theorem decode_formatBR_br {n z p : Bool} (h : (n || z || p) = true) (off9 : BitVec 9) :
    decode (formatBR 0x0 n z p off9) = .br n z p off9 := by
  rw [decode_formatBR, if_pos h]

theorem decode_formatBR_nop (off9 : BitVec 9) : decode (formatBR 0x0 false false false off9) = .nop off9 := by
  rw [decode_formatBR, if_neg (by decide)]

theorem decode_formatJSRR (base : Reg) (x : BitVec 2) (y : BitVec 6) :
    decode (formatJSRR 0x4 x base.bits y) = .jsrr base := by
  simp [decode]

theorem decode_formatJMP (base : Reg) (x : BitVec 3) (y : BitVec 6) :
    decode (formatJMP 0xC x base.bits y) = decodeJmp base := by
  simp [decode]

theorem decodeJmp_of_ne {base : Reg} (h : base ≠ .r7) : decodeJmp base = .jmp base := by
  cases base with
  | r7 => exact absurd rfl h
  | _ => rfl

theorem decode_formatNONE_rti (x : BitVec 12) : decode (formatNONE 0x8 x) = .rti := by
  simp [decode]

theorem decode_formatNONE_res (x : BitVec 12) : decode (formatNONE 0xD x) = .res := by
  simp [decode]

theorem wf_trap_iff {v : BitVec 8} : (Instr.trap v).wf = true ↔ v.toNat < 0x20 ∨ 0x25 < v.toNat := by
  simp only [Instr.wf, isServiceVector, Bool.not_eq_true', decide_eq_false_iff_not]
  omega

theorem decodeTrap_of_wf {v : BitVec 8} (h : (Instr.trap v).wf = true) : decodeTrap v = .trap v :=
  decodeTrap_of_no_service (serviceOf_eq_none (wf_trap_iff.1 h))

/-- Settles O2: each constructor's format gives its fields back, and well-formedness excludes the operands whose words
belong to a refinement row. -/
theorem decodeOfEncodeIsTheInstruction : Obligations.DecodeOfEncodeIsTheInstruction := fun i h =>
  match i, h with
  | .br _ _ _ off9, h => decode_formatBR_br h off9
  | .add dr sr1 sr2, _ => decode_formatOPR_add dr sr1 sr2 0
  | .addi dr sr1 imm5, _ => decode_formatOPI_add dr sr1 imm5
  | .ld dr off9, _ => decode_formatPC9_ld dr off9
  | .st sr off9, _ => decode_formatPC9_st sr off9
  | .jsr off11, _ => decode_formatJSR off11
  | .jsrr base, _ => decode_formatJSRR base 0 0
  | .and dr sr1 sr2, _ => decode_formatOPR_and dr sr1 sr2 0
  | .andi dr sr1 imm5, _ => decode_formatOPI_and dr sr1 imm5
  | .ldr dr base off6, _ => decode_formatBASE6_ldr dr base off6
  | .str sr base off6, _ => decode_formatBASE6_str sr base off6
  | .rti, _ => decode_formatNONE_rti 0
  | .not dr sr, _ => decode_formatNOT dr sr 0x3F
  | .ldi dr off9, _ => decode_formatPC9_ldi dr off9
  | .sti sr off9, _ => decode_formatPC9_sti sr off9
  | .jmp base, h => (decode_formatJMP base 0 0).trans (decodeJmp_of_ne (of_decide_eq_true h))
  | .res, _ => decode_formatNONE_res 0
  | .lea dr off9, _ => decode_formatPC9_lea dr off9
  | .trap v, h => (decode_formatTRAP 0 v).trans (decodeTrap_of_wf h)
  | .getc, _ => decode_formatTRAP 0 0x20
  | .out, _ => decode_formatTRAP 0 0x21
  | .puts, _ => decode_formatTRAP 0 0x22
  | .in_, _ => decode_formatTRAP 0 0x23
  | .putsp, _ => decode_formatTRAP 0 0x24
  | .halt, _ => decode_formatTRAP 0 0x25
  | .ret, _ => decode_formatJMP .r7 0 0
  | .nop off9, _ => decode_formatBR_nop off9

/-- Settles O1: each of the twelve words is decoded by evaluation. -/
theorem specExampleWordsDecode : Obligations.SpecExampleWordsDecode := by
  unfold Obligations.SpecExampleWordsDecode
  decide

end Sys2Proof.Laws
end

section
/-! PROOFS. Every word is a spelling of the instruction it decodes to, up to the bits its row ignores, and the opcode
table's rows (30_encoding.md R70, R72, R78). -/

namespace Sys2Proof.Laws

/-! ## Words that agree in the bits a row does not ignore -/

/-- `w` is `encode i` but for the bits the row of `i` ignores (R72). -/
def Spells (w : Word) (i : Instr) : Prop := w &&& ~~~ i.row.ignored = encode i &&& ~~~ i.row.ignored

theorem spells_of_eq {w : Word} {i : Instr} (h : w = encode i) : Spells w i := by rw [Spells, h]

theorem and_not_eq_of_bits {w v g : Word} (h : ∀ i < 16, g.getLsbD i = false → w.getLsbD i = v.getLsbD i) :
    w &&& ~~~ g = v &&& ~~~ g := by
  refine BitVec.eq_of_getLsbD_eq fun i hi => ?_
  cases hg : g.getLsbD i <;> simp [hg, h i hi]

theorem bit_eq_of_and_not_eq {w v g : Word} (h : w &&& ~~~ g = v &&& ~~~ g) {i : Nat} (hi : i < 16)
    (hg : g.getLsbD i = false) : w.getLsbD i = v.getLsbD i := by
  have hbit := congrArg (·.getLsbD i) h
  simp only [BitVec.getLsbD_and, BitVec.getLsbD_not, hi, hg] at hbit
  simpa only [decide_true, Bool.not_false, Bool.and_true] using hbit

/-! ## A word written out by its fields, for each format; an ignored field at any value -/

section
variable {w : Word} {op : BitVec 4} (hop : fieldOp w = op)
include hop

theorem eq_formatPC9 : w = formatPC9 op (fieldHi w).bits (fieldOff9 w) := by
  subst hop
  refine BitVec.eq_of_getLsbD_eq fun i hi => ?_
  simp only [formatPC9, fieldOp, fieldHi, fieldOff9, Reg.bits_ofBits, BitVec.getLsbD_append, BitVec.getLsbD_extractLsb']
  interval_cases i <;> rfl

theorem eq_formatBASE6 : w = formatBASE6 op (fieldHi w).bits (fieldMid w).bits (fieldOff6 w) := by
  subst hop
  refine BitVec.eq_of_getLsbD_eq fun i hi => ?_
  simp only [formatBASE6, fieldOp, fieldHi, fieldMid, fieldOff6, Reg.bits_ofBits, BitVec.getLsbD_append,
    BitVec.getLsbD_extractLsb']
  interval_cases i <;> rfl

theorem eq_formatBR : w = formatBR op (fieldBit11 w) (fieldBit10 w) (fieldBit9 w) (fieldOff9 w) := by
  subst hop
  refine BitVec.eq_of_getLsbD_eq fun i hi => ?_
  simp only [formatBR, fieldOp, fieldBit11, fieldBit10, fieldBit9, fieldOff9, BitVec.getLsbD_append,
    BitVec.getLsbD_extractLsb', BitVec.getLsbD_ofBool]
  interval_cases i <;> simp

theorem eq_formatOPI (h5 : fieldImmFlag w = true) :
    w = formatOPI op (fieldHi w).bits (fieldMid w).bits (fieldImm5 w) := by
  have hflag : 1#1 = BitVec.ofBool (fieldImmFlag w) := by rw [h5]; rfl
  subst hop
  refine BitVec.eq_of_getLsbD_eq fun i hi => ?_
  simp only [formatOPI, hflag, fieldOp, fieldHi, fieldMid, fieldImmFlag, fieldImm5, Reg.bits_ofBits,
    BitVec.getLsbD_append, BitVec.getLsbD_extractLsb', BitVec.getLsbD_ofBool]
  interval_cases i <;> simp

theorem eq_formatJSR (h11 : fieldBit11 w = true) : w = formatJSR op (fieldOff11 w) := by
  have hflag : 1#1 = BitVec.ofBool (fieldBit11 w) := by rw [h11]; rfl
  subst hop
  refine BitVec.eq_of_getLsbD_eq fun i hi => ?_
  simp only [formatJSR, hflag, fieldOp, fieldBit11, fieldOff11, BitVec.getLsbD_append, BitVec.getLsbD_extractLsb',
    BitVec.getLsbD_ofBool]
  interval_cases i <;> simp

theorem and_not_eq_formatOPR (h5 : fieldImmFlag w = false) (x : BitVec 2) :
    w &&& ~~~ 0x0018 = formatOPR op (fieldHi w).bits (fieldMid w).bits x (fieldLo w).bits &&& ~~~ 0x0018 := by
  have hflag : 0#1 = BitVec.ofBool (fieldImmFlag w) := by rw [h5]; rfl
  subst hop
  refine and_not_eq_of_bits fun i hi hg => ?_
  simp only [formatOPR, hflag, fieldOp, fieldHi, fieldMid, fieldImmFlag, fieldLo, Reg.bits_ofBits,
    BitVec.getLsbD_append, BitVec.getLsbD_extractLsb', BitVec.getLsbD_ofBool]
  interval_cases i <;> simp at hg ⊢

theorem and_not_eq_formatNOT (x : BitVec 6) :
    w &&& ~~~ 0x003F = formatNOT op (fieldHi w).bits (fieldMid w).bits x &&& ~~~ 0x003F := by
  subst hop
  refine and_not_eq_of_bits fun i hi hg => ?_
  simp only [formatNOT, fieldOp, fieldHi, fieldMid, Reg.bits_ofBits, BitVec.getLsbD_append, BitVec.getLsbD_extractLsb']
  interval_cases i <;> simp at hg ⊢

theorem and_not_eq_formatJMP (x : BitVec 3) (y : BitVec 6) :
    w &&& ~~~ 0x0E3F = formatJMP op x (fieldMid w).bits y &&& ~~~ 0x0E3F := by
  subst hop
  refine and_not_eq_of_bits fun i hi hg => ?_
  simp only [formatJMP, fieldOp, fieldMid, Reg.bits_ofBits, BitVec.getLsbD_append, BitVec.getLsbD_extractLsb']
  interval_cases i <;> simp at hg ⊢

theorem and_not_eq_formatJSRR (h11 : fieldBit11 w = false) (x : BitVec 2) (y : BitVec 6) :
    w &&& ~~~ 0x063F = formatJSRR op x (fieldMid w).bits y &&& ~~~ 0x063F := by
  have hflag : 0#1 = BitVec.ofBool (fieldBit11 w) := by rw [h11]; rfl
  subst hop
  refine and_not_eq_of_bits fun i hi hg => ?_
  simp only [formatJSRR, hflag, fieldOp, fieldBit11, fieldMid, Reg.bits_ofBits, BitVec.getLsbD_append,
    BitVec.getLsbD_extractLsb', BitVec.getLsbD_ofBool]
  interval_cases i <;> simp at hg ⊢

theorem and_not_eq_formatTRAP (x : BitVec 4) :
    w &&& ~~~ 0x0F00 = formatTRAP op x (fieldVect8 w) &&& ~~~ 0x0F00 := by
  subst hop
  refine and_not_eq_of_bits fun i hi hg => ?_
  simp only [formatTRAP, fieldOp, fieldVect8, BitVec.getLsbD_append, BitVec.getLsbD_extractLsb']
  interval_cases i <;> simp at hg ⊢

theorem and_not_eq_formatNONE (x : BitVec 12) : w &&& ~~~ 0x0FFF = formatNONE op x &&& ~~~ 0x0FFF := by
  subst hop
  refine and_not_eq_of_bits fun i hi hg => ?_
  simp only [formatNONE, fieldOp, BitVec.getLsbD_append, BitVec.getLsbD_extractLsb']
  interval_cases i <;> simp at hg ⊢

end

/-! ## Words that agree with a format but for its ignored field have that format -/

theorem exists_formatOPR {w : Word} {op : BitVec 4} {a b c : BitVec 3} {x : BitVec 2}
    (h : w &&& ~~~ 0x0018 = formatOPR op a b x c &&& ~~~ 0x0018) : ∃ y, w = formatOPR op a b y c := by
  refine ⟨w.extractLsb' 3 2, BitVec.eq_of_getLsbD_eq fun i hi => ?_⟩
  have hbit := bit_eq_of_and_not_eq h hi
  simp only [formatOPR, BitVec.getLsbD_append, BitVec.getLsbD_extractLsb'] at hbit ⊢
  interval_cases i <;> grind

theorem exists_formatNOT {w : Word} {op : BitVec 4} {a b : BitVec 3} {x : BitVec 6}
    (h : w &&& ~~~ 0x003F = formatNOT op a b x &&& ~~~ 0x003F) : ∃ y, w = formatNOT op a b y := by
  refine ⟨w.extractLsb' 0 6, BitVec.eq_of_getLsbD_eq fun i hi => ?_⟩
  have hbit := bit_eq_of_and_not_eq h hi
  simp only [formatNOT, BitVec.getLsbD_append, BitVec.getLsbD_extractLsb'] at hbit ⊢
  interval_cases i <;> grind

theorem exists_formatJMP {w : Word} {op : BitVec 4} {a : BitVec 3} {x : BitVec 3} {y : BitVec 6}
    (h : w &&& ~~~ 0x0E3F = formatJMP op x a y &&& ~~~ 0x0E3F) : ∃ x' y', w = formatJMP op x' a y' := by
  refine ⟨w.extractLsb' 9 3, w.extractLsb' 0 6, BitVec.eq_of_getLsbD_eq fun i hi => ?_⟩
  have hbit := bit_eq_of_and_not_eq h hi
  simp only [formatJMP, BitVec.getLsbD_append, BitVec.getLsbD_extractLsb'] at hbit ⊢
  interval_cases i <;> grind

theorem exists_formatJSRR {w : Word} {op : BitVec 4} {a : BitVec 3} {x : BitVec 2} {y : BitVec 6}
    (h : w &&& ~~~ 0x063F = formatJSRR op x a y &&& ~~~ 0x063F) : ∃ x' y', w = formatJSRR op x' a y' := by
  refine ⟨w.extractLsb' 9 2, w.extractLsb' 0 6, BitVec.eq_of_getLsbD_eq fun i hi => ?_⟩
  have hbit := bit_eq_of_and_not_eq h hi
  simp only [formatJSRR, BitVec.getLsbD_append, BitVec.getLsbD_extractLsb'] at hbit ⊢
  interval_cases i <;> grind

theorem exists_formatTRAP {w : Word} {op x : BitVec 4} {v : BitVec 8}
    (h : w &&& ~~~ 0x0F00 = formatTRAP op x v &&& ~~~ 0x0F00) : ∃ y, w = formatTRAP op y v := by
  refine ⟨w.extractLsb' 8 4, BitVec.eq_of_getLsbD_eq fun i hi => ?_⟩
  have hbit := bit_eq_of_and_not_eq h hi
  simp only [formatTRAP, BitVec.getLsbD_append, BitVec.getLsbD_extractLsb'] at hbit ⊢
  interval_cases i <;> grind

theorem exists_formatNONE {w : Word} {op : BitVec 4} {x : BitVec 12}
    (h : w &&& ~~~ 0x0FFF = formatNONE op x &&& ~~~ 0x0FFF) : ∃ y, w = formatNONE op y := by
  refine ⟨w.extractLsb' 0 12, BitVec.eq_of_getLsbD_eq fun i hi => ?_⟩
  have hbit := bit_eq_of_and_not_eq h hi
  simp only [formatNONE, BitVec.getLsbD_append, BitVec.getLsbD_extractLsb'] at hbit ⊢
  interval_cases i <;> grind

/-! ## Decoding and spelling -/

theorem eq_encode_of_spells {w : Word} {i : Instr} (h : Spells w i) (h0 : i.row.ignored = 0) : w = encode i := by
  rwa [Spells, h0, show ~~~ (0 : Word) = BitVec.allOnes 16 from rfl, BitVec.and_allOnes, BitVec.and_allOnes] at h

theorem decode_of_spells_trap {w : Word} {v : BitVec 8} (h : w &&& ~~~ 0x0F00 = formatTRAP 0xF 0 v &&& ~~~ 0x0F00) :
    decode w = decodeTrap v := by
  obtain ⟨x, rfl⟩ := exists_formatTRAP h
  exact decode_formatTRAP x v

theorem decode_of_spells_jmp {w : Word} {base : Reg}
    (h : w &&& ~~~ 0x0E3F = formatJMP 0xC 0 base.bits 0 &&& ~~~ 0x0E3F) : decode w = decodeJmp base := by
  obtain ⟨x, y, rfl⟩ := exists_formatJMP h
  exact decode_formatJMP base x y

/-- A word that spells a well-formed instruction decodes to it (R72). -/
theorem decode_of_spells {w : Word} {i : Instr} (hi : i.wf = true) (h : Spells w i) : decode w = i := by
  have no_ignored (h0 : i.row.ignored = 0) : decode w = i := by
    rw [eq_encode_of_spells h h0]
    exact decodeOfEncodeIsTheInstruction i hi
  cases i with
  | add dr sr1 sr2 =>
    obtain ⟨x, rfl⟩ := exists_formatOPR h
    exact decode_formatOPR_add dr sr1 sr2 x
  | and dr sr1 sr2 =>
    obtain ⟨x, rfl⟩ := exists_formatOPR h
    exact decode_formatOPR_and dr sr1 sr2 x
  | not dr sr =>
    obtain ⟨x, rfl⟩ := exists_formatNOT h
    exact decode_formatNOT dr sr x
  | jsrr base =>
    obtain ⟨x, y, rfl⟩ := exists_formatJSRR h
    exact decode_formatJSRR base x y
  | rti =>
    obtain ⟨x, rfl⟩ := exists_formatNONE h
    exact decode_formatNONE_rti x
  | res =>
    obtain ⟨x, rfl⟩ := exists_formatNONE h
    exact decode_formatNONE_res x
  | jmp base => exact (decode_of_spells_jmp h).trans (decodeJmp_of_ne (of_decide_eq_true hi))
  | ret => exact decode_of_spells_jmp h
  | trap v =>
    exact (decode_of_spells_trap h).trans (decodeTrap_of_wf hi)
  | getc | out | puts | in_ | putsp | halt => exact decode_of_spells_trap h
  | br | addi | ld | st | jsr | andi | ldr | str | ldi | sti | lea | nop => exact no_ignored rfl

/-! ## Every word spells the well-formed instruction it decodes to -/

theorem decodeBr_wf_spells {w : Word} {n z p : Bool} {off9 : BitVec 9} (h : w = formatBR 0x0 n z p off9) :
    (decodeBr n z p off9).wf = true ∧ Spells w (decodeBr n z p off9) := by
  unfold decodeBr
  split
  case isTrue hmask => exact ⟨hmask, spells_of_eq h⟩
  case isFalse hmask =>
    simp only [Bool.not_eq_true, Bool.or_eq_false_iff] at hmask
    obtain ⟨⟨rfl, rfl⟩, rfl⟩ := hmask
    exact ⟨rfl, spells_of_eq h⟩

theorem decodeJmp_wf_spells {w : Word} {base : Reg}
    (h : w &&& ~~~ 0x0E3F = formatJMP 0xC 0 base.bits 0 &&& ~~~ 0x0E3F) :
    (decodeJmp base).wf = true ∧ Spells w (decodeJmp base) := by
  cases base <;> exact ⟨rfl, h⟩

/-- A vector is one of the six of R141, or it names no service. -/
theorem serviceVector_cases (v : BitVec 8) :
    v = 0x20 ∨ v = 0x21 ∨ v = 0x22 ∨ v = 0x23 ∨ v = 0x24 ∨ v = 0x25 ∨
      (v.toNat < 0x20 ∨ 0x25 < v.toNat) := by
  bv_omega

theorem decodeTrap_wf_spells {w : Word} {v : BitVec 8}
    (h : w &&& ~~~ 0x0F00 = formatTRAP 0xF 0 v &&& ~~~ 0x0F00) :
    (decodeTrap v).wf = true ∧ Spells w (decodeTrap v) := by
  obtain rfl | rfl | rfl | rfl | rfl | rfl | hv := serviceVector_cases v
  case inr.inr.inr.inr.inr.inr =>
    rw [decodeTrap_of_no_service (serviceOf_eq_none hv)]
    exact ⟨wf_trap_iff.2 hv, h⟩
  all_goals exact ⟨rfl, h⟩

/-- One arm of the decoder after another, by opcode: its fields written back into the format are the word. -/
theorem decode_wf_spells (w : Word) : (decode w).wf = true ∧ Spells w (decode w) := by
  have hop (k : BitVec 4) (h : (fieldOp w).toNat = k.toNat) : fieldOp w = k := BitVec.eq_of_toNat_eq h
  unfold decode
  split
  next h => exact decodeBr_wf_spells (eq_formatBR (hop 0 h))
  next h =>
    split
    case isTrue h5 => exact ⟨rfl, spells_of_eq (eq_formatOPI (hop 1 h) h5)⟩
    case isFalse h5 => exact ⟨rfl, and_not_eq_formatOPR (hop 1 h) (Bool.eq_false_of_not_eq_true h5) 0⟩
  next h => exact ⟨rfl, spells_of_eq (eq_formatPC9 (hop 2 h))⟩
  next h => exact ⟨rfl, spells_of_eq (eq_formatPC9 (hop 3 h))⟩
  next h =>
    split
    case isTrue h11 => exact ⟨rfl, spells_of_eq (eq_formatJSR (hop 4 h) h11)⟩
    case isFalse h11 => exact ⟨rfl, and_not_eq_formatJSRR (hop 4 h) (Bool.eq_false_of_not_eq_true h11) 0 0⟩
  next h =>
    split
    case isTrue h5 => exact ⟨rfl, spells_of_eq (eq_formatOPI (hop 5 h) h5)⟩
    case isFalse h5 => exact ⟨rfl, and_not_eq_formatOPR (hop 5 h) (Bool.eq_false_of_not_eq_true h5) 0⟩
  next h => exact ⟨rfl, spells_of_eq (eq_formatBASE6 (hop 6 h))⟩
  next h => exact ⟨rfl, spells_of_eq (eq_formatBASE6 (hop 7 h))⟩
  next h => exact ⟨rfl, and_not_eq_formatNONE (hop 8 h) 0⟩
  next h => exact ⟨rfl, and_not_eq_formatNOT (hop 9 h) 0x3F⟩
  next h => exact ⟨rfl, spells_of_eq (eq_formatPC9 (hop 10 h))⟩
  next h => exact ⟨rfl, spells_of_eq (eq_formatPC9 (hop 11 h))⟩
  next h => exact decodeJmp_wf_spells (and_not_eq_formatJMP (hop 12 h) 0 0)
  next h => exact ⟨rfl, and_not_eq_formatNONE (hop 13 h) 0⟩
  next h => exact ⟨rfl, spells_of_eq (eq_formatPC9 (hop 14 h))⟩
  next =>
    have hlt := (fieldOp w).isLt
    have h : (fieldOp w).toNat = 15 := by grind
    exact decodeTrap_wf_spells (and_not_eq_formatTRAP (hop 15 h) 0)

/-! ## The rows -/

/-- The per-instruction lemmas of `EncodesIntoRow`, put together. -/
theorem encode_mem_row : ∀ i : Instr, i.row.has (encode i) = true
  | .br n z p off9 => EncodesIntoRow.br n z p off9
  | .add dr sr1 sr2 => EncodesIntoRow.add dr sr1 sr2
  | .addi dr sr1 imm5 => EncodesIntoRow.addi dr sr1 imm5
  | .ld dr off9 => EncodesIntoRow.ld dr off9
  | .st sr off9 => EncodesIntoRow.st sr off9
  | .jsr off11 => EncodesIntoRow.jsr off11
  | .jsrr base => EncodesIntoRow.jsrr base
  | .and dr sr1 sr2 => EncodesIntoRow.and dr sr1 sr2
  | .andi dr sr1 imm5 => EncodesIntoRow.andi dr sr1 imm5
  | .ldr dr base off6 => EncodesIntoRow.ldr dr base off6
  | .str sr base off6 => EncodesIntoRow.str sr base off6
  | .rti => EncodesIntoRow.rti
  | .not dr sr => EncodesIntoRow.not dr sr
  | .ldi dr off9 => EncodesIntoRow.ldi dr off9
  | .sti sr off9 => EncodesIntoRow.sti sr off9
  | .jmp base => EncodesIntoRow.jmp base
  | .res => EncodesIntoRow.res
  | .lea dr off9 => EncodesIntoRow.lea dr off9
  | .trap v => EncodesIntoRow.trap v
  | .getc => EncodesIntoRow.getc
  | .out => EncodesIntoRow.out
  | .puts => EncodesIntoRow.puts
  | .in_ => EncodesIntoRow.in_
  | .putsp => EncodesIntoRow.putsp
  | .halt => EncodesIntoRow.halt
  | .ret => EncodesIntoRow.ret
  | .nop off9 => EncodesIntoRow.nop off9

theorem row_mask_not_ignored (i : Instr) : ~~~ i.row.ignored &&& i.row.mask = i.row.mask := by
  cases i <;> simp only [Instr.row] <;> rfl

/-- Which row holds a word does not depend on its ignored bits, since no row fixes a bit that it ignores. -/
theorem row_has_of_spells {w : Word} {i : Instr} (h : Spells w i) : i.row.has w = true := by
  have hmask : w &&& i.row.mask = encode i &&& i.row.mask := by
    rw [← row_mask_not_ignored i, ← BitVec.and_assoc, ← BitVec.and_assoc, h]
  have hrow := encode_mem_row i
  rwa [Row.has, ← hmask] at hrow

/-- The bits that any primary row fixes: the opcode, bit 11 and bit 5 (R78). -/
def selectBits (op : BitVec 4) (b11 b5 : Bool) : Word :=
  op ++ BitVec.ofBool b11 ++ 0#5 ++ BitVec.ofBool b5 ++ 0#5

theorem and_selectMask (w : Word) : w &&& 0xF820 = selectBits (fieldOp w) (fieldBit11 w) (fieldImmFlag w) := by
  refine BitVec.eq_of_getLsbD_eq fun i hi => ?_
  simp only [selectBits, fieldOp, fieldBit11, fieldImmFlag, BitVec.getLsbD_append, BitVec.getLsbD_extractLsb',
    BitVec.getLsbD_ofBool, BitVec.getLsbD_and]
  interval_cases i <;> simp

theorem primaryRow_mask {r : Row} (hr : r ∈ primaryRows) : 0xF820 &&& r.mask = r.mask := by
  revert r
  decide

theorem primaryRow_has {r : Row} (hr : r ∈ primaryRows) (w : Word) :
    r.has w = r.has (selectBits (fieldOp w) (fieldBit11 w) (fieldImmFlag w)) := by
  rw [Row.has, Row.has, ← and_selectMask, BitVec.and_assoc, primaryRow_mask hr]

theorem length_filter_selectBits :
    ∀ op b11 b5, (primaryRows.filter (fun r => r.has (selectBits op b11 b5))).length = 1 := by
  decide

/-! ## The obligations -/

/-- Settles O3: a word spells the instruction it decodes to, so it lies in that instruction's row. -/
theorem everyWordDecodesIntoItsTableRow : Obligations.EveryWordDecodesIntoItsTableRow := fun w =>
  have ⟨hwf, hspells⟩ := decode_wf_spells w
  ⟨hwf, row_has_of_spells hspells⟩

/-- Settles O4: a row's test looks only at the opcode, bit 11 and bit 5, and for each of their 64 values
one row passes. -/
theorem primaryRowsPartitionTheWords : Obligations.PrimaryRowsPartitionTheWords := fun w => by
  rw [List.filter_congr fun r hr => primaryRow_has hr w]
  exact List.length_eq_one_iff.1 (length_filter_selectBits _ _ _)

/-- Settles O5: a word spells the instruction it decodes to. -/
theorem reencodingKeepsEveryUsedBit : Obligations.ReencodingKeepsEveryUsedBit := fun w =>
  (decode_wf_spells w).2.symm

/-- Settles O6: the second word spells what the first one decodes to, and so decodes to it. -/
theorem ignoredBitsSelectNothing : Obligations.IgnoredBitsSelectNothing := fun w _ h =>
  have ⟨hwf, hspells⟩ := decode_wf_spells w
  decode_of_spells hwf (h.symm.trans hspells)

end Sys2Proof.Laws
end

section
/-! PROOFS. What an instruction can do, said once for all of them (10_state.md R22, R26, R34, 40_execution_cycle.md R87,
R88). -/

namespace Sys2Proof.Laws

open Sys2Proof.Machine

/-! ## The parts of an instruction's effect -/

/-- The status an instruction ends the run with, if it does (R87): HALT, and the TRAPs that select it or no service. -/
def endStatus : Instr → Option ExitStatus
  | .halt => some .success
  | .trap v =>
    match serviceOf v with
    | some .halt => some .success
    | some _ => none
    | none => some .failure
  | _ => none

/-- The state after the link, for an instruction that writes it. -/
def linked (i : Instr) (s : State) : State := if writesLink i then linkR7 s else s

/-- `m` is what the link and then port, memory reads and output make of `s`: the effect of an instruction before the
write that is its own. -/
structure Prepares (i : Instr) (s m : State) : Prop where
  frame : IOFrame (linked i s) m
  unread : readsMemory i = false → m.mem = s.mem
  reads : ∃ n, ReadsLeadTo s n ∧ m.mem = n.mem

/-- Everything an instruction can do: it writes a result, a word of memory or pc, or none of them, or ends the run; or
it has no next state because of the input port. -/
inductive Effect (i : Instr) (s : State) : Host.Outcome State Fault Refusal → Prop
  | result {dr : Reg} {v : Word} {m : State} : Prepares i s m → flagSource i = some dr → endStatus i = none →
      Effect i s (.next (writeResult dr v m))
  | store {a v : Word} {m : State} : Prepares i s m → flagSource i = none → endStatus i = none → stores i = true →
      Effect i s (.next (memWrite a v m))
  | jump {v : Word} {m : State} : Prepares i s m → flagSource i = none → endStatus i = none →
      transfersControl i = true → Effect i s (.next (m.setPc v))
  | keeps {m : State} : Prepares i s m → flagSource i = none → endStatus i = none → Effect i s (.next m)
  | ends {st : ExitStatus} {m : State} : Prepares i s m → flagSource i = none → endStatus i = some st →
      writesLink i = true → Effect i s (.next (terminate st m))
  | waits {u : State} : s.conIn.ended = false → Effect i s (.fault (.inputPending u))
  | starves {u : State} : s.conIn.ended = true → Effect i s (.fault (.endOfInput u))

/-! ## The link -/

theorem linked_of_no_link {i : Instr} (h : writesLink i = false) (s : State) : linked i s = s := by
  rw [linked, h, if_neg Bool.false_ne_true]

theorem linked_of_link {i : Instr} (h : writesLink i = true) (s : State) : linked i s = linkR7 s := if_pos h

/-- The link writes R7 and nothing else. -/
theorem linked_eq (i : Instr) (s : State) : linked i s = { s with regs := (linked i s).regs } := by
  unfold linked
  split <;> rfl

theorem linked_mem (i : Instr) (s : State) : (linked i s).mem = s.mem := by rw [linked_eq]
theorem linked_conIn (i : Instr) (s : State) : (linked i s).conIn = s.conIn := by rw [linked_eq]

/-! ## Reads and output -/

/-- `m` is what the link, reads through `memRead` and output make of `s`; `n` is what the reads alone make of it. -/
structure ReadsFrom (i : Instr) (s m : State) : Prop where
  frame : IOFrame (linked i s) m
  reads : ∃ n, ReadsLeadTo s n ∧ m.mem = n.mem ∧ m.conIn = n.conIn

theorem readsLeadTo_concat {s m t : State} {a v : Word} (h : ReadsLeadTo s m) (hr : memRead a m = .next (v, t)) :
    ReadsLeadTo s t := by
  induction h with
  | none => exact .read hr (.none t)
  | read hfirst _ ih => exact .read hfirst (ih hr)

section
variable {i : Instr} {s m : State}

theorem readsFrom_linked (i : Instr) (s : State) : ReadsFrom i s (linked i s) :=
  ⟨.refl _, s, .none s, linked_mem i s, linked_conIn i s⟩

theorem readsFrom_linkR7 (h : writesLink i = true) : ReadsFrom i s (linkR7 s) :=
  linked_of_link h s ▸ readsFrom_linked i s

/-- A read looks only at memory and the input stream, so the state of the reads alone answers it alike. -/
theorem ReadsFrom.read {a v : Word} {t : State} (h : ReadsFrom i s m) (hr : memRead a m = .next (v, t)) :
    ReadsFrom i s t := by
  obtain ⟨hframe, n, hn, hmem, hin⟩ := h
  obtain ⟨t', ht', hmem', hin'⟩ := memRead_of_same_store hmem.symm hin.symm hr
  exact ⟨hframe.trans (memRead_frame hr).1, t', readsLeadTo_concat hn ht', hmem'.symm, hin'.symm⟩

theorem ReadsFrom.emit (h : ReadsFrom i s m) (e : ConEvent) : ReadsFrom i s (m.emit e) :=
  ⟨h.frame.trans (emit_frame m e), h.reads⟩

theorem ReadsFrom.conOutBytes (h : ReadsFrom i s m) (bs : List Byte) : ReadsFrom i s (conOutBytes bs m) := by
  obtain ⟨hframe, n, hn, hmem, hin⟩ := h
  refine ⟨hframe.trans (conOutBytes_frame bs m), n, hn, ?_, ?_⟩
  · rw [conOutBytes_eq, hmem]
  · rw [conOutBytes_conIn, hin]

theorem ReadsFrom.printString {chars : Word → List Byte} {k : Nat} {a : Word} {t : State} (h : ReadsFrom i s m)
    (ht : printString chars k a m = .next t) : ReadsFrom i s t := by
  induction k generalizing a m with
  | zero => cases ht
  | succ k ih =>
    obtain ⟨⟨c, n⟩, hr, ht⟩ := (thenDo_eq_next _).1 ht
    dsimp only at ht
    split at ht
    · cases ht
      exact h.read hr
    · exact ih ((h.read hr).conOutBytes _) ht

theorem ReadsFrom.ended (h : ReadsFrom i s m) : m.conIn.ended = s.conIn.ended := by
  rw [h.frame.ended, linked_conIn]

theorem ReadsFrom.prepares (h : ReadsFrom i s m) (hread : readsMemory i = true) : Prepares i s m :=
  have ⟨n, hn, hmem, _⟩ := h.reads
  ⟨h.frame, by simp [hread], n, hn, hmem⟩

theorem prepares_of_same_mem (hframe : IOFrame (linked i s) m) (hmem : m.mem = s.mem) : Prepares i s m :=
  ⟨hframe, fun _ => hmem, s, .none s, hmem⟩

theorem prepares_self (h : writesLink i = false) : Prepares i s s :=
  prepares_of_same_mem (by rw [linked_of_no_link h]; exact .refl s) rfl

theorem prepares_linkR7 (h : writesLink i = true) : Prepares i s (linkR7 s) :=
  prepares_of_same_mem (by rw [linked_of_link h]; exact .refl _) rfl

theorem Prepares.emit (h : Prepares i s m) (e : ConEvent) : Prepares i s (m.emit e) :=
  ⟨h.frame.trans (emit_frame m e), h.unread, h.reads⟩

theorem Prepares.setBytes {b : Byte} {bs : List Byte} (h : Prepares i s m) (hb : m.conIn.bytes = b :: bs) :
    Prepares i s (m.setBytes bs) :=
  ⟨h.frame.trans (setBytes_frame hb), h.unread, h.reads⟩

theorem Prepares.ended (h : Prepares i s m) : m.conIn.ended = s.conIn.ended := by
  rw [h.frame.ended, linked_conIn]

/-! ## The shared operations -/

/-- A read that waits ends the instruction, and one that completes leaves the rest of it to do. -/
theorem effect_memRead {a : Word} {f : Word × State → Host.Outcome State Fault Refusal} (h : ReadsFrom i s m)
    (hf : ∀ v t, ReadsFrom i s t → Effect i s (f (v, t))) : Effect i s (thenDo (memRead a m) f) := by
  obtain ⟨v, t, hr⟩ | ⟨-, -, hopen, hr⟩ := memRead_cases a m
  · rw [hr]
    exact hf v t (h.read hr)
  · rw [hr]
    exact .waits (h.ended ▸ hopen)

theorem effect_loadInto {dr : Reg} {a : Word} (h : ReadsFrom i s m) (hread : readsMemory i = true)
    (hflag : flagSource i = some dr) (hend : endStatus i = none) : Effect i s (loadInto dr a m) :=
  effect_memRead h fun _ _ ht => .result (ht.prepares hread) hflag hend

theorem effect_printFromR0 {chars : Word → List Byte} (h : ReadsFrom i s m) (hread : readsMemory i = true)
    (hflag : flagSource i = none) (hend : endStatus i = none) : Effect i s (printFromR0 chars m) := by
  unfold printFromR0
  obtain ⟨t, ht⟩ | ⟨hopen, u, hu⟩ := printString_cases (chars := chars) (stringReach_lt_fuel (m.reg .r0) m)
  · rw [ht]
    exact .keeps (((h.printString ht).prepares hread).emit .flush) hflag hend
  · rw [hu]
    exact .waits (h.ended ▸ hopen)

theorem effect_receiveInput {echo : Bool} (h : Prepares i s m) (hflag : flagSource i = some .r0)
    (hend : endStatus i = none) : Effect i s (receiveInput echo m) := by
  obtain ⟨b, bs, hb, hr⟩ | ⟨-, hended, hr⟩ | ⟨-, hopen, hr⟩ := receiveInput_cases echo m
  · rw [hr]
    cases echo with
    | false => exact .result (h.setBytes hb) hflag hend
    | true => exact .result ((h.setBytes hb).emit (.char b)) hflag hend
  · rw [hr]
    exact .starves (h.ended ▸ hended)
  · rw [hr]
    exact .waits (h.ended ▸ hopen)

end

/-! ## Every instruction -/

theorem effect_strings {i : Instr} (hl : writesLink i = true) (chars : Word → List Byte) (s : State)
    (hread : readsMemory i = true) (hflag : flagSource i = none) (hend : endStatus i = none) :
    Effect i s (printFromR0 chars (enterTrap s)) :=
  effect_printFromR0 (readsFrom_linkR7 hl) hread hflag hend

theorem flagSource_trap {v : BitVec 8} (h : v.toNat < 0x20 ∨ 0x25 < v.toNat) : flagSource (.trap v) = none := by
  refine if_neg ?_
  rintro (rfl | rfl) <;> revert h <;> decide

theorem exec_br (n z p : Bool) (off9 : BitVec 9) (s : State) : exec (.br n z p off9) s =
    .next (if brTaken n z p s.cc then s.setPc (s.pc + off9.signExtend 16) else s) := rfl

theorem effect_br (n z p : Bool) (off9 : BitVec 9) (s : State) :
    Effect (.br n z p off9) s (exec (.br n z p off9) s) := by
  rw [exec_br]
  split
  · exact .jump (prepares_self rfl) rfl rfl rfl
  · exact .keeps (prepares_self rfl) rfl rfl

theorem effect_trap (v : BitVec 8) (s : State) : Effect (.trap v) s (exec (.trap v) s) := by
  obtain rfl | rfl | rfl | rfl | rfl | rfl | hv := serviceVector_cases v
  · exact effect_receiveInput (prepares_linkR7 rfl) rfl rfl
  · exact .keeps ((prepares_linkR7 rfl).emit _) rfl rfl
  · exact effect_strings rfl putsChars s rfl rfl rfl
  · exact effect_receiveInput ((prepares_linkR7 rfl).emit _) rfl rfl
  · exact effect_strings rfl putspChars s rfl rfl rfl
  · exact .ends (((prepares_linkR7 rfl).emit _).emit _) rfl rfl rfl
  · have hnone := serviceOf_eq_none hv
    rw [exec_trap_of_no_service hnone]
    exact .ends (((prepares_linkR7 rfl).emit _).emit _) (flagSource_trap hv) (by rw [endStatus, hnone]) rfl

/-- The case split over the instructions, from which every frame below takes its cases. -/
theorem exec_effect (i : Instr) (s : State) : Effect i s (exec i s) :=
  match i with
  | .add .. | .addi .. | .and .. | .andi .. | .not .. | .lea .. => .result (prepares_self rfl) rfl rfl
  | .ld .. | .ldr .. => effect_loadInto (readsFrom_linked _ s) rfl rfl rfl
  | .ldi .. => effect_memRead (readsFrom_linked _ s) fun _ _ ht => effect_loadInto ht rfl rfl rfl
  | .st .. | .str .. => .store (prepares_self rfl) rfl rfl rfl
  | .sti .. => effect_memRead (readsFrom_linked _ s) fun _ _ ht => .store (ht.prepares rfl) rfl rfl rfl
  | .br n z p off9 => effect_br n z p off9 s
  | .jmp _ | .ret => .jump (prepares_self rfl) rfl rfl rfl
  | .jsr _ | .jsrr _ => .jump (prepares_linkR7 rfl) rfl rfl rfl
  | .nop _ => .keeps (prepares_self rfl) rfl rfl
  | .rti | .res => .keeps ((prepares_self rfl).emit _) rfl rfl
  | .trap v => effect_trap v s
  | .getc => effect_receiveInput (prepares_linkR7 rfl) rfl rfl
  | .in_ => effect_receiveInput ((prepares_linkR7 rfl).emit _) rfl rfl
  | .out => .keeps ((prepares_linkR7 rfl).emit _) rfl rfl
  | .puts => effect_strings rfl putsChars s rfl rfl rfl
  | .putsp => effect_strings rfl putspChars s rfl rfl rfl
  | .halt => .ends (((prepares_linkR7 rfl).emit _).emit _) rfl rfl rfl

end Sys2Proof.Laws
end

section
/-! PROOFS. The whole-machine frames, each read off the effects an instruction can have (10_state.md R22, R26, R34,
44_trap.md R140). -/

namespace Sys2Proof.Laws

open Sys2Proof.Machine

/-! ## The prepared state against the state at dispatch -/

section
variable {i : Instr} {s m : State} (h : Prepares i s m)
include h

theorem Prepares.pc : m.pc = s.pc := by rw [h.frame.pc, linked_eq]
theorem Prepares.cc : m.cc = s.cc := by rw [h.frame.cc, linked_eq]
theorem Prepares.run : m.run = s.run := by rw [h.frame.run, linked_eq]

theorem Prepares.word (a : Word) (hs : a ≠ 0xFE00) (hd : a ≠ 0xFE02) : m.word a = s.word a := by
  rw [h.frame.word a hs hd, State.word, linked_mem, State.word]

theorem Prepares.wf (hwf : s.mem.wf = true) : m.mem.wf = true := h.frame.wf (by rwa [linked_mem])

theorem Prepares.reg_linked (r : Reg) : m.reg r = (linked i s).reg r := congrArg (·.get r) h.frame.regs

theorem Prepares.reg {r : Reg} (hr : r = .r7 → writesLink i = false) : m.reg r = s.reg r := by
  rw [h.reg_linked]
  cases hl : writesLink i with
  | false => rw [linked_of_no_link hl]
  | true =>
    have hne : r ≠ .r7 := fun h7 => by simp [hr h7] at hl
    rw [linked_of_link hl, linkR7_eq, setReg_reg, if_neg hne]

theorem Prepares.reg_r7 (hl : writesLink i = true) : m.reg .r7 = s.pc := by
  rw [h.reg_linked, linked_of_link hl, linkR7_eq, setReg_reg, if_pos rfl]

theorem Prepares.console : (∃ es, m.conOut = s.conOut ++ es) ∧ (∃ bs, s.conIn.bytes = bs ++ m.conIn.bytes) ∧
    m.conIn.ended = s.conIn.ended := by
  have hout := h.frame.out
  have hused := h.frame.used
  rw [linked_eq] at hout hused
  exact ⟨hout, hused, h.ended⟩

end

theorem reg_writeResult_of_ne {r dr : Reg} (v : Word) (s : State) (h : r ≠ dr) :
    (writeResult dr v s).reg r = s.reg r :=
  (sameCoreBut_writeResult dr v s).regs r (by rwa [List.mem_singleton])

theorem flagSource_trap_eq (v : BitVec 8) :
    flagSource (.trap v) = if v = 0x20 ∨ v = 0x23 then some .r0 else none := rfl

/-- No instruction writes R7 both as its result and as the link: the TRAPs with a result write R0. -/
theorem eq_r0_of_link {i : Instr} {r : Reg} (hl : writesLink i = true) (hf : flagSource i = some r) : r = .r0 := by
  cases i with
  | trap v =>
    rw [flagSource_trap_eq] at hf
    split at hf <;> cases hf
    rfl
  | getc | in_ =>
    cases hf
    rfl
  | jsr | jsrr | out | puts | putsp | halt => cases hf
  | _ => cases hl

/-! ## A completed instruction -/

section
variable {i : Instr} {s t : State} (h : exec i s = .next t)
include h

theorem effect_of_next : Effect i s (.next t) := h ▸ exec_effect i s

theorem exec_console : (∃ es, t.conOut = s.conOut ++ es) ∧ (∃ bs, s.conIn.bytes = bs ++ t.conIn.bytes) ∧
    t.conIn.ended = s.conIn.ended := by
  cases effect_of_next h with
  | result hp | store hp | jump hp | keeps hp | ends hp => exact hp.console

theorem exec_halted_iff (hrun : s.run = .running) (st : ExitStatus) : t.run = .halted st ↔ endStatus i = some st := by
  cases effect_of_next h with
  | result hp _ hend | store hp _ hend | jump hp _ hend | keeps hp _ hend =>
    have ht : _ = RunState.running := hp.run.trans hrun
    simp [hend, ht]
  | ends _ _ hend => simp [hend]

theorem exec_run : t.run = s.run ∨ ∃ st, t.run = .halted st := by
  cases effect_of_next h with
  | result hp | store hp | jump hp | keeps hp => exact .inl hp.run
  | ends => exact .inr ⟨_, rfl⟩

/-- The end of a run leaves pc where the fetch put it, and the link in R7 (44_trap.md R140). -/
theorem exec_halted (hrun : s.run = .running) (hhalt : t.run ≠ .running) : t.reg .r7 = s.pc ∧ t.pc = s.pc := by
  cases effect_of_next h with
  | result hp | store hp | jump hp | keeps hp => exact absurd (hp.run.trans hrun) hhalt
  | ends hp _ _ hl => exact ⟨hp.reg_r7 hl, hp.pc⟩

theorem exec_wf (hwf : s.mem.wf = true) : t.mem.wf = true := by
  cases effect_of_next h with
  | result hp | jump hp | keeps hp | ends hp => exact hp.wf hwf
  | store hp => exact setWord_wf _ _ (hp.wf hwf)

end

/-! ## The obligations -/

/-- Settles O51: of the effects only the result writes cc, with the flags of the value it writes. -/
theorem onlyDefiningInstructionsSetTheFlags : Obligations.OnlyDefiningInstructionsSetTheFlags := fun i s t h => by
  cases effect_of_next h with
  | result hp hflag =>
    rw [hflag]
    refine ⟨?_, nofun⟩
    rintro r ⟨⟩
    rw [reg_writeResult_self]
    exact flagsDescribe_writeResult _ _ _
  | store hp hflag | jump hp hflag | keeps hp hflag | ends hp hflag =>
    rw [hflag]
    exact ⟨nofun, fun _ => hp.cc⟩

/-- Settles O52: the link writes R7 before the effect, and of the effects only the result writes a register. -/
theorem registersAreWrittenOnlyAsResultOrLink : Obligations.RegistersAreWrittenOnlyAsResultOrLink := fun i s t h => by
  cases effect_of_next h with
  | store hp | jump hp | keeps hp | ends hp => exact ⟨fun r _ hr => hp.reg hr, hp.reg_r7⟩
  | result hp hflag =>
    refine ⟨fun r hr hlink => ?_, fun hl => ?_⟩
    · have hne : r ≠ _ := fun hrd => hr (hrd ▸ hflag)
      rw [reg_writeResult_of_ne _ _ hne, hp.reg hlink]
    · obtain rfl := eq_r0_of_link hl hflag
      rw [reg_writeResult_of_ne _ _ (by decide), hp.reg_r7 hl]

/-- Settles O53: of the effects only the store writes memory, after what reads make of it. -/
theorem memoryIsWrittenOnlyByStoresAndPolls : Obligations.MemoryIsWrittenOnlyByStoresAndPolls := fun i s t h hs => by
  cases effect_of_next h with
  | store _ _ _ hst => simp [hs] at hst
  | result hp | jump hp | keeps hp | ends hp =>
    obtain ⟨n, hn, hmem⟩ := hp.reads
    exact ⟨hp.word, fun hread a => congrArg (·.get a.toNat) (hp.unread hread), n, hn,
      fun a => congrArg (·.get a.toNat) hmem⟩

/-- Settles O54: of the effects only the jump writes pc. -/
theorem onlyControlTransfersWritePc : Obligations.OnlyControlTransfersWritePc := fun i s t h hc => by
  cases effect_of_next h with
  | jump _ _ _ hj => simp [hc] at hj
  | result hp | store hp | keeps hp | ends hp => exact hp.pc

/-- Settles O32: what O52, O54 and O53 say of every instruction, for a TRAP, whose result can only be R0. -/
theorem everyTrapLinksAndStays : Obligations.EveryTrapLinksAndStays := fun v s t h => by
  obtain ⟨hregs, hlink⟩ := registersAreWrittenOnlyAsResultOrLink _ s t h
  exact ⟨hlink rfl, onlyControlTransfersWritePc _ s t h rfl,
    fun r h0 h7 => hregs r (fun hf => h0 (eq_r0_of_link rfl hf)) fun hr => absurd hr h7,
    (memoryIsWrittenOnlyByStoresAndPolls _ s t h rfl).1, exec_run h⟩

/-- Settles O55: the fetch prints nothing and consumes input as a poll does, and no effect touches either again. -/
theorem aStepOnlyAppendsOutputAndConsumesInput : Obligations.AStepOnlyAppendsOutputAndConsumesInput := fun s t h => by
  obtain ⟨-, w, m, -, hframe, hout, hexec⟩ := step_eq_next h
  obtain ⟨⟨es, hes⟩, ⟨bs, hbs⟩, hended⟩ := exec_console hexec
  obtain ⟨bs', hbs'⟩ := hframe.used
  refine ⟨⟨es, ?_⟩, ⟨bs' ++ bs, ?_⟩, hended.trans hframe.ended⟩
  · rw [hes, setPc_conOut, hout]
  · rw [hbs', List.append_assoc, ← hbs, setPc_conIn]

end Sys2Proof.Laws
end

section
/-! PROOFS. Memory: what a read and a write do, and the canonical form (20_memory.md R43 to R46; log 1). -/

namespace Sys2Proof.Laws

open Sys2Proof.Machine

/-! ## Polls -/

theorem word_setWord_self (a v : Word) (s : State) : (s.setWord a v).word a = v := by
  rw [setWord_word, if_pos rfl]

theorem word_setWord_of_ne {a b : Word} (v : Word) (s : State) (h : b ≠ a) : (s.setWord a v).word b = s.word b := by
  rw [setWord_word, if_neg h]

theorem kbdr_ne_kbsr : kbdr ≠ kbsr := by decide

/-- Settles O19: the three answers of the port give the three polls, and without one the read waits. -/
theorem memReadPollsOnlyAtTheKeyboardStatus : Obligations.MemReadPollsOnlyAtTheKeyboardStatus := fun s => by
  refine ⟨fun a => memRead_plain s, fun b bs hb h0 => ?_, fun b bs hb h0 => ?_, fun hb hended => ?_, memRead_pending⟩
  · have h := memRead_key hb h0
    have hdata : (((s.setBytes bs).setWord kbdr (zext8 b)).setWord kbsr 0x8000).word kbdr = zext8 b := by
      rw [word_setWord_of_ne _ _ kbdr_ne_kbsr, word_setWord_self]
    refine ⟨_, h, word_setWord_self .., hdata, fun a hs hd => ?_, rfl, rfl, rfl, sameCoreBut_of_memRead h⟩
    exact (word_setWord_of_ne _ _ hs).trans (word_setWord_of_ne _ _ hd)
  · subst h0
    have h := memRead_nul hb
    exact ⟨_, h, word_setWord_self .., fun a => word_setWord_of_ne _ _, rfl, rfl, rfl, sameCoreBut_of_memRead h⟩
  · have h := memRead_end hb hended
    exact ⟨_, h, word_setWord_self .., fun a => word_setWord_of_ne _ _, rfl, rfl, rfl, sameCoreBut_of_memRead h⟩

/-! ## Writes followed by reads -/

/-- A poll overwrites 0xFE00, so a word stored there before leaves no trace in its answer or in what it leaves
(R43, D4). -/
theorem memRead_kbsr_after_write_kbsr {v x : Word} {s m : State}
    (h : memRead kbsr (s.setWord kbsr v) = .next (x, m)) :
    ∃ n, memRead kbsr s = .next (x, n) ∧ ∀ b, m.word b = n.word b := by
  have hin : (s.setWord kbsr v).conIn = s.conIn := rfl
  obtain ⟨b, bs, hb, -⟩ | ⟨hb, hended, -⟩ | ⟨hb, hopen, -⟩ := askPort_cases s
  · obtain rfl | h0 := eq_or_ne b 0x00
    · cases h.symm.trans (memRead_nul (hin ▸ hb))
      refine ⟨_, memRead_nul hb, fun a => ?_⟩
      simp only [setWord_word, setBytes_word]
      split <;> rfl
    · cases h.symm.trans (memRead_key (hin ▸ hb) h0)
      refine ⟨_, memRead_key hb h0, fun a => ?_⟩
      simp only [setWord_word, setBytes_word]
      split <;> rfl
  · cases h.symm.trans (memRead_end (hin ▸ hb) hended)
    refine ⟨_, memRead_end hb hended, fun a => ?_⟩
    simp only [setWord_word]
    split <;> rfl
  · cases h.symm.trans (memRead_pending (hin ▸ hb) hopen)

/-- Only a key, a byte that is not 0x00, writes 0xFE02. -/
theorem word_kbdr_of_memRead {a x : Word} {s m : State} (h : memRead a s = .next (x, m))
    (hkey : ¬ (a = kbsr ∧ ∃ k ks, s.conIn.bytes = k :: ks ∧ k ≠ 0x00)) : m.word kbdr = s.word kbdr := by
  by_cases ha : a = kbsr
  · subst ha
    obtain ⟨b, bs, hb, -⟩ | ⟨hb, hended, -⟩ | ⟨hb, hopen, -⟩ := askPort_cases s
    · obtain rfl | h0 := eq_or_ne b 0x00
      · cases h.symm.trans (memRead_nul hb)
        exact word_setWord_of_ne _ _ kbdr_ne_kbsr
      · exact absurd ⟨rfl, b, bs, hb, h0⟩ hkey
    · cases h.symm.trans (memRead_end hb hended)
      exact word_setWord_of_ne _ _ kbdr_ne_kbsr
    · cases h.symm.trans (memRead_pending hb hopen)
  · rw [(memRead_next_of_ne_kbsr h ha).2]

/-- Settles O20: a write is a `setWord`; a plain read changes nothing, and a poll rewrites 0xFE00 and, for a
key, 0xFE02. -/
theorem memWriteStoresAndDoesNothingElse : Obligations.MemWriteStoresAndDoesNothingElse := fun a v s => by
  refine ⟨word_memWrite_self a v s, fun _ => word_memWrite_of_ne v s, rfl, rfl, rfl, sameCoreBut_memWrite a v s,
    fun b hb => ?_, fun b x m h hb => ?_, fun x m => memRead_kbsr_after_write_kbsr, fun b x m h hkey => ?_⟩
  · rw [memRead_plain _ hb, memWrite_eq, setWord_word]
  · rw [(memRead_next_of_ne_kbsr h hb).2, word_memWrite_self]
  · exact (word_kbdr_of_memRead h hkey).trans (word_memWrite_self _ v s)

/-! ## The canonical form -/

theorem get_cons_self (k : Nat) (v : Word) (m : Memory) : Memory.get ((k, v) :: m) k = v := if_pos rfl

theorem get_cons_of_ne {a k : Nat} (v : Word) (m : Memory) (h : a ≠ k) :
    Memory.get ((k, v) :: m) a = Memory.get m a := if_neg h

/-- A listed word is not the reset word, which is what a memory reads as below its bound. -/
theorem get_cons_ne_get_below {lo hi k : Nat} {v : Word} {m n : Memory}
    (hm : Memory.wfFrom lo ((k, v) :: m) = true) (hn : Memory.wfFrom hi n = true) (hk : k < hi) :
    Memory.get ((k, v) :: m) k ≠ Memory.get n k := by
  obtain ⟨-, -, hv, -⟩ := Memory.wfFrom_cons.1 hm
  rwa [get_cons_self, Memory.get_below hn hk]

/-- Two canonical memories that read alike list the same first address. -/
theorem head_le_of_get_eq {lo k l : Nat} {v w : Word} {m n : Memory} (hm : Memory.wfFrom lo ((k, v) :: m) = true)
    (hn : Memory.wfFrom lo ((l, w) :: n) = true)
    (h : ∀ a < Config.memWords, Memory.get ((k, v) :: m) a = Memory.get ((l, w) :: n) a) : l ≤ k := by
  obtain ⟨-, hk, -, -⟩ := Memory.wfFrom_cons.1 hm
  obtain ⟨-, hrest⟩ := Memory.wfFrom_cons.1 hn
  by_contra hlt
  exact get_cons_ne_get_below hm (Memory.wfFrom_cons.2 ⟨le_refl l, hrest⟩) (by omega) (h k hk)

theorem eq_of_get_eq {lo : Nat} {m n : Memory} (hm : Memory.wfFrom lo m = true) (hn : Memory.wfFrom lo n = true)
    (h : ∀ a < Config.memWords, m.get a = n.get a) : m = n := by
  induction m generalizing lo n with
  | nil =>
    cases n with
    | nil => rfl
    | cons c n =>
      obtain ⟨-, hk, -, -⟩ := Memory.wfFrom_cons.1 hn
      exact absurd (h c.1 hk).symm (get_cons_ne_get_below hn (hi := c.1 + 1) rfl (by omega))
  | cons c m ih =>
    obtain ⟨k, v⟩ := c
    obtain ⟨-, hk, -, hm'⟩ := Memory.wfFrom_cons.1 hm
    cases n with
    | nil => exact absurd (h k hk) (get_cons_ne_get_below hm (hi := k + 1) rfl (by omega))
    | cons d n =>
      obtain ⟨l, w⟩ := d
      obtain ⟨-, -, -, hn'⟩ := Memory.wfFrom_cons.1 hn
      obtain rfl : k = l :=
        (head_le_of_get_eq hn hm fun a ha => (h a ha).symm).antisymm (head_le_of_get_eq hm hn h)
      obtain rfl : v = w := by simpa only [get_cons_self] using h k hk
      have htail : m = n := ih hm' hn' fun a ha => by
        by_cases hak : a = k
        · rw [hak, Memory.get_below hm' (by omega), Memory.get_below hn' (by omega)]
        · simpa only [get_cons_of_ne _ _ hak] using h a ha
      rw [htail]

/-- Settles O21: by induction on the lists, whose first addresses and words must agree. -/
theorem canonicalMemoriesThatReadAlikeAreEqual : Obligations.CanonicalMemoriesThatReadAlikeAreEqual :=
  fun _ _ hm hn h => eq_of_get_eq hm hn fun a ha => h (BitVec.ofNatLT a ha)

/-! ## Waiting for the port (40_execution_cycle.md R88) -/

theorem exec_getc (s : State) : exec .getc s = receiveInput false (enterTrap s) := rfl

theorem exec_in (s : State) : exec .in_ s = receiveInput true (notice .inPrompt (enterTrap s)) := rfl

theorem receiveInput_byte (echo : Bool) {s : State} {b : Byte} {bs : List Byte} (h : s.conIn.bytes = b :: bs) :
    receiveInput echo s = .next (writeResult .r0 (zext8 b)
      (if echo then (s.setBytes bs).emit (.char b) else s.setBytes bs)) := by
  rw [receiveInput, askPort, h]
  rfl

theorem receiveInput_end (echo : Bool) {s : State} (h : s.conIn.bytes = []) (hended : s.conIn.ended = true) :
    receiveInput echo s = .fault (.endOfInput s) := by
  simp [receiveInput, askPort, h, hended]

theorem receiveInput_pending (echo : Bool) {s : State} (h : s.conIn.bytes = []) (hopen : s.conIn.ended = false) :
    receiveInput echo s = .fault (.inputPending s) := by
  simp [receiveInput, askPort, h, hopen]

/-- Settles O26: each of these instructions waits in a read of 0xFE00, or in the question it asks the port. -/
theorem readsOfTheKeyboardStatusWaitForTheInput : Obligations.ReadsOfTheKeyboardStatusWaitForTheInput :=
  fun s hb hopen => by
  have hwait : memRead 0xFE00 s = .fault (.inputPending s) := memRead_pending hb hopen
  have hload (dr : Reg) : loadInto dr 0xFE00 s = .fault (.inputPending s) := by rw [loadInto, hwait, thenDo_fault]
  refine ⟨fun dr off9 ha => ⟨?_, ?_, ?_⟩, fun dr off9 ha hp => ?_, fun dr base off6 ha => ?_, ?_, ?_⟩
  · rw [exec_ld, ha, hload]
  · rw [exec_ldi, ha, hwait, thenDo_fault]
  · rw [exec_sti, ha, hwait, thenDo_fault]
  · rw [exec_ldi_of_memRead (memRead_plain s ha), hp, hload]
  · rw [exec_ldr, ha, hload]
  · exact ⟨_, (exec_getc s).trans (receiveInput_pending false hb hopen)⟩
  · exact ⟨_, (exec_in s).trans (receiveInput_pending true hb hopen)⟩

end Sys2Proof.Laws
end

section
/-! PROOFS. The step, the run and its end, the invariant, and the environment (40_execution_cycle.md R81 to R89,
10_state.md R31, 70_reset_and_hazards.md R190 to R197). -/

namespace Sys2Proof.Laws

open Sys2Proof.Machine

/-! ## The step from its fetch -/

section
variable {s m : State} (hrun : s.run = .running)
include hrun

theorem step_of_running : step s = thenDo (fetch s) fun p => exec (decode p.1) p.2 := by
  rw [step, hrun]

theorem step_of_memRead {w : Word} (h : memRead s.pc s = .next (w, m)) :
    step s = exec (decode w) (m.setPc (s.pc + 1)) := by
  rw [step_of_running hrun, fetch, h, thenDo_next, thenDo_next, incPc_eq, (memRead_frame h).1.pc]

theorem step_of_memRead_fault {r : Fault} (h : memRead s.pc s = .fault r) : step s = .fault r := by
  rw [step_of_running hrun, fetch, h, thenDo_fault, thenDo_fault]

theorem step_of_plain_fetch (hpc : s.pc ≠ 0xFE00) : step s = exec (decode (s.word s.pc)) (s.setPc (s.pc + 1)) :=
  step_of_memRead hrun (memRead_plain s hpc)

end

/-- Settles O43: the fetch is one read at pc, whose fault ends the step, and the increment follows it. -/
theorem stepRunsTheDecodedInstruction : Obligations.StepRunsTheDecodedInstruction := fun _ hrun =>
  ⟨step_of_plain_fetch hrun, fun _ _ => step_of_memRead hrun, fun _ => step_of_memRead_fault hrun⟩

/-! ## A fetch from the keyboard status (20_memory.md R46) -/

theorem exec_rti (s : State) : exec .rti s = .next (s.emit (.notice .rti)) := rfl
theorem exec_res (s : State) : exec .res s = .next (s.emit (.notice .res)) := rfl
theorem exec_nop (off9 : BitVec 9) (s : State) : exec (.nop off9) s = .next s := rfl

theorem decode_ready : decode 0x8000 = .rti := by decide
theorem decode_zero : decode 0x0000 = .nop 0 := by decide

/-- Settles O44: each of the poll's three answers gives the fetched word, which decodes to RTI or to a no-operation. -/
theorem aFetchFromTheKeyboardStatusRunsRtiOrNop : Obligations.AFetchFromTheKeyboardStatusRunsRtiOrNop :=
  fun s hrun hpc => by
  have hstep {w : Word} {m : State} (h : memRead 0xFE00 s = .next (w, m)) :
      step s = exec (decode w) (m.setPc 0xFE01) := by
    rw [← hpc] at h
    rw [step_of_memRead hrun h, hpc]
    rfl
  obtain ⟨-, hkey, hnul, hend, -⟩ := memReadPollsOnlyAtTheKeyboardStatus s
  refine ⟨fun b bs hb h0 => ?_, fun bs hb => ?_, fun hb hended => ?_⟩
  · obtain ⟨m, hr, hstatus, hdata, hword, hin, -, hcc, hcore⟩ := hkey b bs hb h0
    have h := hstep hr
    rw [decode_ready, exec_rti] at h
    exact ⟨_, h, rfl, hstatus, hdata, hword, hin, hcc, hcore.regs, congrArg (· ++ _) hcore.conOut, hcore.run⟩
  · obtain ⟨m, hr, hstatus, hword, hin, -, hcc, hcore⟩ := hnul 0x00 bs hb rfl
    have h := hstep hr
    rw [decode_zero, exec_nop] at h
    exact ⟨_, h, rfl, hstatus, hword, hin, hcc, hcore.regs, hcore.conOut, hcore.run⟩
  · obtain ⟨m, hr, hstatus, hword, hin, -, hcc, hcore⟩ := hend hb hended
    have h := hstep hr
    rw [decode_zero, exec_nop] at h
    exact ⟨_, h, rfl, hstatus, hword, hin, hcc, hcore.regs, hcore.conOut, hcore.run⟩

/-! ## A stored instruction (20_memory.md R55) -/

theorem step_of_stored {a v : Word} {s : State} (hrun : s.run = .running) (hpc : s.pc ≠ 0xFE00) (ha : a = s.pc) :
    step (memWrite a v s) = exec (decode v) ((memWrite a v s).setPc (s.pc + 1)) := by
  subst ha
  have h := step_of_plain_fetch (s := memWrite s.pc v s) hrun hpc
  rwa [show (memWrite s.pc v s).pc = s.pc from rfl, word_memWrite_self] at h

/-- Settles O30: each of the stores ends with the word at pc, and the next step fetches it. -/
theorem aStoredWordIsTheNextInstruction : Obligations.AStoredWordIsTheNextInstruction := fun s t hrun hpc => by
  refine ⟨fun sr h => ?_, fun sr base off6 ha h => ?_, fun sr off9 hplain hp h => ?_⟩
  · cases (exec_st sr 0 s).symm.trans h
    exact step_of_stored hrun hpc (by simp)
  · cases (exec_str sr base off6 s).symm.trans h
    exact step_of_stored hrun hpc ha
  · cases (exec_sti_of_memRead (memRead_plain s hplain)).symm.trans h
    exact step_of_stored hrun hpc hp

/-! ## The ends of a step and of a run -/

theorem effect_stops {i : Instr} {s : State} {o : Host.Outcome State Fault Refusal} (h : Effect i s o) :
    (∃ t, o = .next t) ∨ (s.conIn.ended = false ∧ ∃ u, o = .fault (.inputPending u)) ∨
    (s.conIn.ended = true ∧ ∃ u, o = .fault (.endOfInput u)) := by
  cases h with
  | result | store | jump | keeps | ends => exact .inl ⟨_, rfl⟩
  | waits hopen => exact .inr (.inl ⟨hopen, _, rfl⟩)
  | starves hended => exact .inr (.inr ⟨hended, _, rfl⟩)

/-- Settles O50: the fetch completes or waits, and the instruction has one of the ends of its effects. -/
theorem aStepStopsOnlyForInput : Obligations.AStepStopsOnlyForInput := fun s hrun => by
  obtain ⟨w, m, hr⟩ | ⟨-, -, hopen, hr⟩ := memRead_cases s.pc s
  · have hstops := effect_stops (exec_effect (decode w) (m.setPc (s.pc + 1)))
    rw [setPc_conIn, (memRead_frame hr).1.ended] at hstops
    rwa [step_of_memRead hrun hr]
  · exact .inr (.inl ⟨hopen, s, step_of_memRead_fault hrun hr⟩)

theorem endStatus_decodeBr (n z p : Bool) (off9 : BitVec 9) : endStatus (decodeBr n z p off9) = none := by
  unfold decodeBr
  split <;> rfl

theorem endStatus_decodeJmp (base : Reg) : endStatus (decodeJmp base) = none := by
  cases base <;> rfl

theorem endStatus_decodeTrap (v : BitVec 8) : endStatus (decodeTrap v) = endStatus (.trap v) := by
  obtain rfl | rfl | rfl | rfl | rfl | rfl | hv := serviceVector_cases v
  case inr.inr.inr.inr.inr.inr => rw [decodeTrap_of_no_service (serviceOf_eq_none hv)]
  all_goals rfl

theorem endStatus_trap (v : BitVec 8) :
    (endStatus (.trap v) = some .success ↔ v = 0x25) ∧
    (endStatus (.trap v) = some .failure ↔ v.toNat < 0x20 ∨ 0x25 < v.toNat) := by
  obtain rfl | rfl | rfl | rfl | rfl | rfl | hv := serviceVector_cases v
  case inr.inr.inr.inr.inr.inr =>
    have hne : v ≠ 0x25 := by
      rintro rfl
      revert hv
      decide
    simpa [endStatus, serviceOf_eq_none hv, hv] using hne
  all_goals decide

/-- Only words of opcode 1111 can end a run. -/
theorem endStatus_decode (w : Word) :
    endStatus (decode w) = if fieldOp w = 0xF then endStatus (.trap (fieldVect8 w)) else none := by
  split
  case isTrue h => simp [decode, h, endStatus_decodeTrap]
  case isFalse h =>
    unfold decode
    split
    case h_1 => exact endStatus_decodeBr ..
    case h_2 | h_5 | h_6 => split <;> rfl
    case h_13 => exact endStatus_decodeJmp _
    case h_16 =>
      have hlt := (fieldOp w).isLt
      have hne : (fieldOp w).toNat ≠ 15 := fun h15 => h (BitVec.eq_of_toNat_eq h15)
      grind
    all_goals rfl

/-- Settles O49: the step's instruction ends the run when its `endStatus` says so, and that is read off the word. -/
theorem aRunEndsOnlyByHaltOrAnInvalidVector : Obligations.ARunEndsOnlyByHaltOrAnInvalidVector := fun s t m w hr h => by
  obtain ⟨hrun, w', m', hr', hframe, -, hexec⟩ := step_eq_next h
  cases hr.symm.trans hr'
  have hrun' : (m.setPc (s.pc + 1)).run = .running := hframe.run.trans hrun
  have ⟨hsuccess, hfailure⟩ := endStatus_trap (fieldVect8 w)
  have hends (st : ExitStatus) :
      t.run = .halted st ↔ fieldOp w = 0xF ∧ endStatus (.trap (fieldVect8 w)) = some st := by
    rw [exec_halted_iff hexec hrun', endStatus_decode]
    simp
  exact ⟨(hends _).trans (and_congr_right' hsuccess), (hends _).trans (and_congr_right' hfailure),
    exec_halted hexec hrun'⟩

/-! ## The invariant -/

theorem flagsDescribe_legal {cc v : Word} (h : FlagsDescribe cc v) : ccLegal cc := by
  obtain ⟨-, -, rfl⟩ | ⟨-, -, rfl⟩ | ⟨-, -, rfl⟩ := flagsDescribe_cases h <;> decide

theorem exec_ccLegal {i : Instr} {s t : State} (h : exec i s = .next t) (hcc : ccLegal s.cc) : ccLegal t.cc := by
  obtain ⟨hsome, hnone⟩ := onlyDefiningInstructionsSetTheFlags i s t h
  cases hf : flagSource i with
  | none => rwa [hnone hf]
  | some r => exact flagsDescribe_legal (hsome r hf)

/-- Settles O48: the fetch and the instruction each keep memory canonical; cc is a result's or the old one; and where
the instruction ends the run, the link is pc. -/
theorem everyStepKeepsTheInvariant : Obligations.EveryStepKeepsTheInvariant := fun s t hinv h => by
  obtain ⟨hrun, w, m, -, hframe, -, hexec⟩ := step_eq_next h
  refine ⟨exec_wf hexec (hframe.wf hinv.mem), exec_ccLegal hexec ?_, fun hhalt => ?_⟩
  · rw [setPc_cc, hframe.cc]
    exact hinv.cc
  · obtain ⟨hlink, hpc⟩ := exec_halted hexec (hframe.run.trans hrun) hhalt
    exact hlink.trans hpc.symm

/-! ## The environment -/

/-- Settles O47: reset lists no word and has cc 0, and the loader's write is a `setWord`, which keeps the canonical
form. -/
theorem launchStatesMeetTheInvariant : Obligations.LaunchStatesMeetTheInvariant :=
  ⟨⟨reset_mem_wf, .inl rfl, fun h => absurd rfl h⟩, fun _ a v h => ⟨setWord_wf a v h.mem, h.cc, h.halted⟩,
    fun _ _ _ h => ⟨h.mem, h.cc, h.halted⟩, fun _ => ⟨reset_mem_wf, .inl rfl, fun h => absurd rfl h⟩⟩

/-- Settles O45: a step looks at `run` first, the environment's other operations do not write it, and the reset input
gives the reset state with the input stream kept. -/
theorem haltedIsLeftOnlyByReset : Obligations.HaltedIsLeftOnlyByReset :=
  ⟨fun s st h => by rw [step, h], fun _ _ _ => rfl, fun _ _ _ => rfl,
    fun _ => ⟨rfl, rfl, rfl, reg_reset, word_reset, rfl, rfl⟩⟩

end Sys2Proof.Laws
end

section
/-! PROOFS. The string services PUTS and PUTSP (44_trap.md R144, R146, 20_memory.md R46; log 14, log 15). -/

namespace Sys2Proof.Laws

open Sys2Proof.Machine

/-! ## The loop over a string -/

/-- Over a string that ends, the loop prints it and leaves memory and input as its reads do, or it runs out of fuel. The
loop's own state `u` has printed what `s`, the state of the reads alone, has not. -/
theorem printString_of_stringReads (chars : Word → List Byte) {cs : List Word} {s u m : State} {a : Word} (k : Nat)
    (h : StringReads s a cs m) (hmem : u.mem = s.mem) (hin : u.conIn = s.conIn) :
    (∃ t, printString chars k a u = .next t ∧ t.conOut = u.conOut ++ cs.flatMap (fun c => (chars c).map .char) ∧
      t.mem = m.mem ∧ t.conIn = m.conIn) ∨
    ∃ r, printString chars k a u = .fault (.stringNeverEnds r) := by
  induction k generalizing cs s u a with
  | zero => exact .inr ⟨u, rfl⟩
  | succ k ih =>
    cases cs with
    | nil =>
      obtain ⟨u', hr, hmem', hin'⟩ := memRead_of_same_store hmem hin h
      exact .inl ⟨u', by simp [printString, hr], by simp [(memRead_frame hr).2], hmem', hin'⟩
    | cons c cs =>
      obtain ⟨hc, n, hn, hrest⟩ := h
      obtain ⟨u', hr, hmem', hin'⟩ := memRead_of_same_store hmem hin hn
      have hloop : printString chars (k + 1) a u = printString chars k (a + 1) (conOutBytes (chars c) u') := by
        rw [printString, hr, thenDo_next, if_neg hc]
      have hout : (conOutBytes (chars c) u').conOut = u.conOut ++ (chars c).map .char := by
        rw [conOutBytes_eq, (memRead_frame hr).2]
      have hmem'' : (conOutBytes (chars c) u').mem = n.mem := by rw [conOutBytes_eq, hmem']
      rw [hloop, List.flatMap_cons, ← List.append_assoc, ← hout]
      exact ih hrest hmem'' ((conOutBytes_conIn _ u').trans hin')

/-- PUTS and PUTSP over a string that ends: the fuel suffices, so the string is printed and flushed after the link. -/
theorem printFromR0_of_stringReads (chars : Word → List Byte) {cs : List Word} {s m : State}
    (h : StringReads s (s.reg .r0) cs m) :
    ∃ t, printFromR0 chars (enterTrap s) = .next t ∧ t.reg .r7 = s.pc ∧ t.pc = s.pc ∧ t.cc = s.cc ∧
      EmitsBut [.r7] (cs.flatMap (fun c => (chars c).map .char) ++ [.flush]) s t ∧ SameStore m t := by
  have hr0 : (enterTrap s).reg .r0 = s.reg .r0 := reg_enterTrap_of_ne s (by decide)
  have hfuel := printString_cases (chars := chars) (stringReach_lt_fuel ((enterTrap s).reg .r0) (enterTrap s))
  rw [hr0] at hfuel
  obtain ⟨t, ht, hout, hmem, hin⟩ | ⟨r, hr⟩ :=
    printString_of_stringReads chars (stringFuel (enterTrap s)) h (u := enterTrap s) rfl rfl
  · have hframe := printString_frame ht
    have hreg (r : Reg) : t.reg r = (enterTrap s).reg r := congrArg (·.get r) hframe.regs
    refine ⟨conFlush t, by rw [printFromR0, hr0, ht, thenDo_next], (hreg .r7).trans (reg_enterTrap_r7 s), hframe.pc,
      hframe.cc, ⟨fun r hr => (hreg r).trans (reg_enterTrap_of_ne s (List.ne_of_not_mem_cons hr)), ?_, hframe.run⟩,
      fun a => congrArg (·.get a.toNat) hmem, hin⟩
    rw [conFlush_eq, emit_conOut, hout, List.append_assoc]
    rfl
  · rw [hr] at hfuel
    simp at hfuel

/-! ## Strings that do not touch 0xFE00 -/

theorem stringReads_of_stringAt {s : State} {a : Word} {cs : List Word} (h : StringAt s a cs) :
    StringReads s a cs s := by
  induction cs generalizing a with
  | nil =>
    obtain ⟨ha, hend⟩ := h
    rw [StringReads, memRead_plain s ha, hend]
  | cons c cs ih =>
    obtain ⟨ha, hword, hc, hrest⟩ := h
    exact ⟨hc, s, by rw [memRead_plain s ha, hword], ih hrest⟩

/-! ## The characters of PUTS and PUTSP -/

theorem flatMap_putsChars (cs : List Word) :
    cs.flatMap (fun c => (putsChars c).map ConEvent.char) = cs.map (fun c => .char (c.extractLsb' 0 8)) :=
  List.map_eq_flatMap.symm

theorem map_putspChars (c : Word) : (putspChars c).map ConEvent.char =
    .char (c.extractLsb' 0 8) :: (if c.extractLsb' 8 8 = 0x00 then [] else [.char (c.extractLsb' 8 8)]) := by
  unfold putspChars highByte lowByte
  split <;> rfl

theorem exec_puts (s : State) : exec .puts s = printFromR0 putsChars (enterTrap s) := rfl
theorem exec_putsp (s : State) : exec .putsp s = printFromR0 putspChars (enterTrap s) := rfl

/-! ## The obligations -/

/-- Settles O38: both services are the loop over the string, with their own characters of a word. -/
theorem stringsReadThroughAPollArePrinted : Obligations.StringsReadThroughAPollArePrinted := fun s m cs h => by
  have hputs := printFromR0_of_stringReads putsChars h
  have hputsp := printFromR0_of_stringReads putspChars h
  rw [← exec_puts, flatMap_putsChars] at hputs
  simp only [← exec_putsp, map_putspChars] at hputsp
  exact ⟨hputs, hputsp⟩

/-- Settles O36: reads that do not touch 0xFE00 leave the state as it was. -/
theorem putsPrintsUpToTheFirstZeroWord : Obligations.PutsPrintsUpToTheFirstZeroWord := fun s cs h =>
  (stringsReadThroughAPollArePrinted s s cs (stringReads_of_stringAt h)).1

/-- Settles O37: reads that do not touch 0xFE00 leave the state as it was. -/
theorem putspPrintsPackedCharacters : Obligations.PutspPrintsPackedCharacters := fun s cs h =>
  (stringsReadThroughAPollArePrinted s s cs (stringReads_of_stringAt h)).2

theorem printFromR0_ends_or_waits (chars : Word → List Byte) (s : State) :
    (∃ t, printFromR0 chars s = .next t) ∨
    (s.conIn.ended = false ∧ ∃ u, printFromR0 chars s = .fault (.inputPending u)) := by
  unfold printFromR0
  obtain ⟨t, ht⟩ | ⟨hopen, u, hu⟩ := printString_cases (chars := chars) (stringReach_lt_fuel (s.reg .r0) s)
  · exact .inl ⟨conFlush t, by rw [ht, thenDo_next]⟩
  · exact .inr ⟨hopen, u, by rw [hu, thenDo_fault]⟩

/-- Settles O39: the fuel of the loop is more than any string needs. -/
theorem stringOutputEndsOrWaits : Obligations.StringOutputEndsOrWaits := fun s =>
  ⟨printFromR0_ends_or_waits putsChars (enterTrap s), printFromR0_ends_or_waits putspChars (enterTrap s)⟩

end Sys2Proof.Laws
end

section
/-! PROOFS. The single instructions: ADD, AND and NOT, BR, JMP and JSRR, GETC and IN, RTI and RES (41_operate.md,
42_control.md, 44_trap.md R142, R145, 45_reserved.md). -/

namespace Sys2Proof.Laws

open Sys2Proof.Machine

/-! ## ADD, AND, NOT -/

theorem exec_add (dr sr1 sr2 : Reg) (s : State) :
    exec (.add dr sr1 sr2) s = .next (writeResult dr (s.reg sr1 + s.reg sr2) s) := rfl

theorem exec_and (dr sr1 sr2 : Reg) (s : State) :
    exec (.and dr sr1 sr2) s = .next (writeResult dr (s.reg sr1 &&& s.reg sr2) s) := rfl

/-- The complement within 16 bits is the difference from 0xFFFF (R104). -/
theorem exec_not (dr sr : Reg) (s : State) : exec (.not dr sr) s = .next (writeResult dr (0xFFFF - s.reg sr) s) := by
  rw [show (0xFFFF : Word) = BitVec.allOnes 16 from rfl, BitVec.allOnes_sub_eq_not]
  rfl

/-- Settles O9: the word decodes by its fields, and ADD only writes the sum as a result. -/
theorem addRegisterSumsAndSetsFlags : Obligations.AddRegisterSumsAndSetsFlags := fun dr sr1 sr2 =>
  ⟨decode_formatOPR_add dr sr1 sr2, fun s => writesResult_of_exec_eq (exec_add dr sr1 sr2 s)⟩

/-- Settles O11: the word decodes by its fields, and AND only writes the AND as a result. -/
theorem andRegisterMasksAndSetsFlags : Obligations.AndRegisterMasksAndSetsFlags := fun dr sr1 sr2 =>
  ⟨decode_formatOPR_and dr sr1 sr2, fun s => writesResult_of_exec_eq (exec_and dr sr1 sr2 s)⟩

/-- Settles O13: the word decodes by its fields, and NOT only writes the complement as a result. -/
theorem notComplementsAndSetsFlags : Obligations.NotComplementsAndSetsFlags := fun dr sr =>
  ⟨decode_formatNOT dr sr, fun s => writesResult_of_exec_eq (exec_not dr sr s)⟩

/-! ## BR -/

theorem brMask_and_ne_zero_iff : ∀ (n z p : Bool) (c : BitVec 3), brMask n z p &&& c ≠ 0 ↔
    (n = true ∧ c.getLsbD 2 = true) ∨ (z = true ∧ c.getLsbD 1 = true) ∨ (p = true ∧ c.getLsbD 0 = true) := by
  decide

/-- The mask bits meet the flag bits pairwise (R110, D8). -/
theorem brTaken_iff (n z p : Bool) (cc : Word) : brTaken n z p cc = true ↔
    (n = true ∧ cc.getLsbD 2 = true) ∨ (z = true ∧ cc.getLsbD 1 = true) ∨ (p = true ∧ cc.getLsbD 0 = true) := by
  have h := brMask_and_ne_zero_iff n z p (cc.extractLsb' 0 3)
  simp only [BitVec.getLsbD_extractLsb'] at h
  exact decide_eq_true_iff.trans h

theorem sameCoreBut_setPc (v : Word) (s : State) : SameCoreBut [] s (s.setPc v) := ⟨fun _ _ => rfl, rfl, rfl⟩

theorem sameStore_setPc (v : Word) (s : State) : SameStore s (s.setPc v) := ⟨fun _ => rfl, rfl⟩

/-- An instruction that only writes pc completes with that pc and nothing else changed. -/
theorem jumps_of_exec_eq {i : Instr} {v : Word} {s : State} (h : exec i s = .next (s.setPc v)) :
    ∃ t, exec i s = .next t ∧ t.pc = v ∧ t.cc = s.cc ∧ SameCoreBut [] s t ∧ SameStore s t :=
  ⟨_, h, rfl, rfl, sameCoreBut_setPc v s, sameStore_setPc v s⟩

theorem exec_br_taken {n z p : Bool} {s : State} (h : brTaken n z p s.cc = true) (off9 : BitVec 9) :
    exec (.br n z p off9) s = .next (s.setPc (s.pc + off9.signExtend 16)) := by
  rw [exec_br, if_pos h]

theorem exec_br_not_taken {n z p : Bool} {s : State} (h : ¬ brTaken n z p s.cc = true) (off9 : BitVec 9) :
    exec (.br n z p off9) s = .next s := by
  rw [exec_br, if_neg h]

/-- Settles O14: the word decodes by its fields, and BR is a jump when a tested flag is set and nothing otherwise. -/
theorem branchIsTakenOnATestedFlag : Obligations.BranchIsTakenOnATestedFlag := fun n z p off9 => by
  refine ⟨fun h => decode_formatBR_br h off9, fun s => ?_⟩
  rw [← brTaken_iff]
  by_cases htaken : brTaken n z p s.cc = true
  · exact ⟨_, exec_br_taken htaken off9, fun _ => rfl, fun h => absurd htaken h, rfl, sameCoreBut_setPc _ s,
      sameStore_setPc _ s⟩
  · exact ⟨s, exec_br_not_taken htaken off9, fun h => absurd h htaken, fun _ => rfl, rfl, ⟨fun _ _ => rfl, rfl, rfl⟩,
      .refl s⟩

/-- Settles O15: a mask that tests nothing decodes to NOP, and where no flag is set none of the tested ones is. -/
theorem untestedBranchIsANoOperation : Obligations.UntestedBranchIsANoOperation := fun off9 s => by
  refine ⟨decode_formatBR_nop off9, ⟨s, exec_nop off9 s, rfl⟩, fun n z p hcc => exec_br_not_taken ?_ off9⟩
  rw [brTaken_iff, hcc]
  simp

/-! ## JMP, RET, JSRR -/

theorem exec_jmp (base : Reg) (s : State) : exec (.jmp base) s = .next (s.setPc (s.reg base)) := rfl

theorem exec_ret (s : State) : exec .ret s = .next (s.setPc (s.reg .r7)) := rfl

theorem exec_jsrr (base : Reg) (s : State) :
    exec (.jsrr base) s = .next ((linkR7 s).setPc ((linkR7 s).reg base)) := rfl

/-- Settles O16: the word decodes by its base field, and JMP and RET only jump. -/
theorem jumpGoesToTheBaseRegister : Obligations.JumpGoesToTheBaseRegister := fun base x y =>
  ⟨fun h => (decode_formatJMP base x y).trans (decodeJmp_of_ne h), decode_formatJMP .r7 x y,
    fun s => ⟨jumps_of_exec_eq (exec_jmp base s), jumps_of_exec_eq (exec_ret s)⟩⟩

/-- Settles O18: JSRR only links and jumps, to what the base register holds after the link. -/
theorem jsrrLinksBeforeItReadsTheBase : Obligations.JsrrLinksBeforeItReadsTheBase := fun base => by
  refine ⟨decode_formatJSRR base, fun s => ?_⟩
  obtain ⟨t, ht, hlink, hpc, hcc, hcore, hstore⟩ := linksAndJumps_of_exec_eq (exec_jsrr base s)
  refine ⟨t, ht, hlink, ?_, fun hne => ?_, hcc, hcore, hstore⟩
  · rintro rfl
    rw [hpc, linkR7_eq, setReg_reg, if_pos rfl]
  · rw [hpc, linkR7_eq, setReg_reg, if_neg hne]

/-! ## The refinement rows -/

/-- Settles O31: the two spellings of a refinement row run alike by definition, and a TRAP word decodes by its
vector. -/
theorem refinementRowsRunAsTheirPrimaryRow : Obligations.RefinementRowsRunAsTheirPrimaryRow := fun s =>
  ⟨rfl, rfl, rfl, rfl, rfl, rfl, rfl, fun off9 => exec_br_not_taken (by rw [brTaken_iff]; simp) off9,
    fun x => ⟨decode_formatTRAP x 0x20, decode_formatTRAP x 0x21, decode_formatTRAP x 0x22, decode_formatTRAP x 0x23,
      decode_formatTRAP x 0x24, decode_formatTRAP x 0x25⟩⟩

/-! ## GETC and IN -/

/-- The byte received goes to R0 with its flags; R7 keeps the link, and nothing else changes but what `m` already
has. -/
theorem reg_writeResult_r0 (v : Word) {s m : State} (hregs : m.regs = (enterTrap s).regs) :
    (writeResult .r0 v m).reg .r7 = s.pc ∧ ∀ r, r ∉ [Reg.r0, Reg.r7] → (writeResult .r0 v m).reg r = s.reg r := by
  have hreg (r : Reg) : m.reg r = (enterTrap s).reg r := congrArg (·.get r) hregs
  refine ⟨?_, fun r hr => ?_⟩
  · rw [reg_writeResult_of_ne _ _ (by decide), hreg, reg_enterTrap_r7]
  · simp only [List.mem_cons, List.not_mem_nil, or_false, not_or] at hr
    obtain ⟨h0, h7⟩ := hr
    rw [reg_writeResult_of_ne _ _ h0, hreg, reg_enterTrap_of_ne s h7]

/-- Settles O33: GETC receives a byte into R0 after the link, and stops where the port gives none. -/
theorem getcStoresTheNextByte : Obligations.GetcStoresTheNextByte := fun s => by
  rw [exec_getc]
  refine ⟨fun b bs hb => ?_, fun hb hended => ⟨_, receiveInput_end false hb hended⟩,
    fun hb hopen => ⟨_, receiveInput_pending false hb hopen⟩⟩
  have ⟨hlink, hregs⟩ := reg_writeResult_r0 (zext8 b) (s := s) (m := (enterTrap s).setBytes bs) rfl
  exact ⟨_, receiveInput_byte false hb, reg_writeResult_self .., hlink, flagsDescribe_writeResult .., rfl, fun _ => rfl,
    rfl, hregs, rfl, rfl⟩

/-- Settles O34: IN is GETC with the prompt before it and the echo in it. -/
theorem inPromptsEchoesAndStoresTheByte : Obligations.InPromptsEchoesAndStoresTheByte := fun s => by
  rw [exec_in]
  refine ⟨fun b bs hb => ?_, fun hb hended => ⟨_, receiveInput_end true hb hended, rfl⟩,
    fun hb hopen => ⟨_, receiveInput_pending true hb hopen, rfl⟩⟩
  have ⟨hlink, hregs⟩ := reg_writeResult_r0 (zext8 b) (s := s)
    (m := ((notice .inPrompt (enterTrap s)).setBytes bs).emit (.char b)) rfl
  exact ⟨_, receiveInput_byte true hb, reg_writeResult_self .., hlink, flagsDescribe_writeResult .., rfl, fun _ => rfl,
    rfl, hregs, List.append_assoc .., rfl⟩

/-! ## RTI and RES -/

/-- An instruction that only emits an event completes with it in the trace and nothing else changed. -/
theorem emits_of_exec_eq {i : Instr} {e : ConEvent} {s : State} (h : exec i s = .next (s.emit e)) :
    ∃ t, exec i s = .next t ∧ t.pc = s.pc ∧ t.cc = s.cc ∧ EmitsBut [] [e] s t ∧ SameStore s t :=
  ⟨_, h, rfl, rfl, ⟨fun _ _ => rfl, rfl, rfl⟩, fun _ => rfl, rfl⟩

/-- Settles O42: the words decode by their opcode, and RTI and RES only emit their notice. -/
theorem rtiAndResOnlyEmitANotice : Obligations.RtiAndResOnlyEmitANotice :=
  ⟨fun x => ⟨decode_formatNONE_rti x, decode_formatNONE_res x⟩,
    fun s => ⟨emits_of_exec_eq (exec_rti s), emits_of_exec_eq (exec_res s)⟩⟩

end Sys2Proof.Laws
end
